-- ==== Sys2Proof/Word.lean ====
section
/-! DEFINITION. The machine's word types (00_scope.md R10, R12: every quantity is unsigned). -/

namespace Sys2Proof

/-- An 8-bit value: a general register, the delay timer, a memory byte (10_state.md R21, R26, R36). -/
abbrev Byte := BitVec 8

/-- A 16-bit value: an instruction word, `I`, `PC`, a stack slot (10_state.md R24, R27, R30). -/
abbrev Word := BitVec 16

/-- A register number, the 4-bit field `x` or `y` that indexes the register file directly
(10_state.md R21, 30_encoding.md R73). -/
abbrev Reg := BitVec 4

end Sys2Proof
end

