-- ==== Sys2Proof/Config.lean ====
section
/-! DEFINITION. The free inputs of the outside world, as constants with no value: nothing in Lean can say
what they answer, so a claim about a run holds whatever they answer (00_scope.md R16). Each is applied to
`State.draws`, the index of the Step. -/

namespace Sys2Proof.Config

/-- The answers the peripheral adapter would give in Step number `n`: bit `k` is `KeyDown(k)`
(60_exceptions.md R166: a free boolean, with no law linking one answer to the next; entry 1). -/
opaque freeKeys : Nat → BitVec 16

/-- The random source's answer in Step number `n` (60_exceptions.md R167: one free 8-bit input; entry 2). -/
opaque freeRnd : Nat → Byte

/-- How many Ticks fall between Step number `n` and the Step before it (60_exceptions.md R163: any number,
zero included; entry 3). -/
opaque freeTicks : Nat → Nat

end Sys2Proof.Config
end

