-- ==== Sys2Proof/WellFormed.lean ====
section
/-! DEFINITION. Which instruction terms an instruction word can hold (30_encoding.md R73). -/

namespace Sys2Proof

/-- An address operand comes from the 12-bit field `nnn` (30_encoding.md R73: 0x0000 to 0x0FFF). -/
def addressFits (nnn : Word) : Bool := nnn.toNat < 0x1000

/-- A count of sprite rows comes from the 4-bit field `n` (30_encoding.md R73: 0 to 15). -/
def rowsFit (n : Nat) : Bool := n < 16

/-- An instruction that some word encodes. A register number and a byte fit their fields by their type. -/
def wellFormed : Instr → Bool
  | .ret => true
  | .jp nnn => addressFits nnn
  | .call nnn => addressFits nnn
  | .se _ _ => true
  | .sne _ _ => true
  | .ldImm _ _ => true
  | .addImm _ _ => true
  | .ldReg _ _ => true
  | .andReg _ _ => true
  | .addReg _ _ => true
  | .subReg _ _ => true
  | .ldI nnn => addressFits nnn
  | .rnd _ _ => true
  | .drw _ _ n => rowsFit n
  | .skp _ => true
  | .sknp _ => true
  | .ldVxDt _ => true
  | .ldDtVx _ => true
  | .ldF _ => true
  | .ldB _ => true
  | .ldRegs _ => true

end Sys2Proof
end

