-- ==== Sys2Proof/Decode.lean ====
section
/-! DEFINITION. The instruction word and its fields, the decoder, and after it the encoder
(30_encoding.md R70 to R82). -/

namespace Sys2Proof

/-! ### Fields of the word (30_encoding.md R71) -/

/-- `op = w[15:12]`, the primary opcode class. -/
def fieldOp (w : Word) : BitVec 4 := w.extractLsb' 12 4

/-- `x = w[11:8]`. -/
def fieldX (w : Word) : Reg := w.extractLsb' 8 4

/-- `y = w[7:4]`. -/
def fieldY (w : Word) : Reg := w.extractLsb' 4 4

/-- `n = w[3:0]`. -/
def fieldN (w : Word) : BitVec 4 := w.extractLsb' 0 4

/-- `kk = w[7:0]`. -/
def fieldKK (w : Word) : Byte := w.extractLsb' 0 8

/-- `nnn = w[11:0]`, zero-extended to 16 bits (30_encoding.md R73). -/
def fieldNNN (w : Word) : Word := (w.extractLsb' 0 12).setWidth 16

/-! ### Words and bytes (30_encoding.md R70, 20_memory.md R53) -/

/-- Two consecutive memory bytes as an instruction word: the byte at the lower address is `w[15:8]`. -/
def wordOfBytes (byte0 byte1 : Byte) : Word := byte0 ++ byte1

/-- The byte stored at the lower address, `w[15:8]`. -/
def byte0 (w : Word) : Byte := w.extractLsb' 8 8

/-- The byte stored at the higher address, `w[7:0]`. -/
def byte1 (w : Word) : Byte := w.extractLsb' 0 8

/-! ### The decoder (30_encoding.md R76) -/

/-- The `Decode` of 30_encoding.md R76, a total function of the word; `none` is an unimplemented word
(R79). Literal digits of a pattern are matched, letters are not (entry 17). -/
def decodeWord (w : Word) : Option Instr :=
  match (fieldOp w).toNat with
  | 0x0 => if w = 0x00EE#16 then some .ret else none
  | 0x1 => some (.jp (fieldNNN w))
  | 0x2 => some (.call (fieldNNN w))
  | 0x3 => some (.se (fieldX w) (fieldKK w))
  | 0x4 => some (.sne (fieldX w) (fieldKK w))
  | 0x6 => some (.ldImm (fieldX w) (fieldKK w))
  | 0x7 => some (.addImm (fieldX w) (fieldKK w))
  | 0x8 =>
    if fieldN w = 0x0#4 then some (.ldReg (fieldX w) (fieldY w))
    else if fieldN w = 0x2#4 then some (.andReg (fieldX w) (fieldY w))
    else if fieldN w = 0x4#4 then some (.addReg (fieldX w) (fieldY w))
    else if fieldN w = 0x5#4 then some (.subReg (fieldX w) (fieldY w))
    else none
  | 0xA => some (.ldI (fieldNNN w))
  | 0xC => some (.rnd (fieldX w) (fieldKK w))
  | 0xD => some (.drw (fieldX w) (fieldY w) (fieldN w).toNat)
  | 0xE =>
    if fieldKK w = 0x9E#8 then some (.skp (fieldX w))
    else if fieldKK w = 0xA1#8 then some (.sknp (fieldX w))
    else none
  | 0xF =>
    if fieldKK w = 0x07#8 then some (.ldVxDt (fieldX w))
    else if fieldKK w = 0x15#8 then some (.ldDtVx (fieldX w))
    else if fieldKK w = 0x29#8 then some (.ldF (fieldX w))
    else if fieldKK w = 0x33#8 then some (.ldB (fieldX w))
    else if fieldKK w = 0x65#8 then some (.ldRegs (fieldX w))
    else none
  | _ => none

/-- Why bytes give no instruction. -/
inductive DecodeError where
  /-- Fewer than the two bytes of an instruction. -/
  | truncated
  /-- The word matches no row of the opcode map (30_encoding.md R79). -/
  | unimplemented (w : Word)
  deriving DecidableEq, Repr

/-- The instruction at the front of a list of bytes, with the bytes after it (30_encoding.md R70: every
instruction is two bytes). -/
def decode : List Byte → Except DecodeError (Instr × List Byte)
  | b0 :: b1 :: rest =>
    match decodeWord (wordOfBytes b0 b1) with
    | some ins => .ok (ins, rest)
    | none => .error (.unimplemented (wordOfBytes b0 b1))
  | _ => .error .truncated

/-! ### The encoder, from the patterns of 30_encoding.md R72 and R78 -/

/-- Format A: class, `nnn`. -/
def formatA (op : BitVec 4) (nnn : Word) : Word := op ++ nnn.setWidth 12

/-- Format XK: class, `x`, `kk`. -/
def formatXK (op : BitVec 4) (x : Reg) (kk : Byte) : Word := (op ++ x) ++ kk

/-- Formats XY and XYN: class, `x`, `y`, low nibble. -/
def formatXYN (op : BitVec 4) (x y : Reg) (n : BitVec 4) : Word := ((op ++ x) ++ y) ++ n

/-- The instruction word of an instruction (30_encoding.md R78). -/
def encode : Instr → Word
  | .ret => 0x00EE#16
  | .jp nnn => formatA 0x1#4 nnn
  | .call nnn => formatA 0x2#4 nnn
  | .se x kk => formatXK 0x3#4 x kk
  | .sne x kk => formatXK 0x4#4 x kk
  | .ldImm x kk => formatXK 0x6#4 x kk
  | .addImm x kk => formatXK 0x7#4 x kk
  | .ldReg x y => formatXYN 0x8#4 x y 0x0#4
  | .andReg x y => formatXYN 0x8#4 x y 0x2#4
  | .addReg x y => formatXYN 0x8#4 x y 0x4#4
  | .subReg x y => formatXYN 0x8#4 x y 0x5#4
  | .ldI nnn => formatA 0xA#4 nnn
  | .rnd x kk => formatXK 0xC#4 x kk
  | .drw x y n => formatXYN 0xD#4 x y (BitVec.ofNat 4 n)
  | .skp x => formatXK 0xE#4 x 0x9E#8
  | .sknp x => formatXK 0xE#4 x 0xA1#8
  | .ldVxDt x => formatXK 0xF#4 x 0x07#8
  | .ldDtVx x => formatXK 0xF#4 x 0x15#8
  | .ldF x => formatXK 0xF#4 x 0x29#8
  | .ldB x => formatXK 0xF#4 x 0x33#8
  | .ldRegs x => formatXK 0xF#4 x 0x65#8

/-- The two bytes of an instruction, in the order memory holds them (30_encoding.md R70). -/
def encodeBytes (ins : Instr) : List Byte := [byte0 (encode ins), byte1 (encode ins)]

/-- The instruction word that the opcode table numbers `w`, of which the lowest `nbits` bits count. -/
def tableWord (nbits w : Nat) : Word := BitVec.ofNat 16 (w % 2 ^ nbits)

/-- The instruction the decoder reads from a word given as the opcode table numbers its bits: the word is
laid out big-endian and its bytes are decoded. -/
def decodeTableWord (nbits w : Nat) : Option Instr :=
  match decode [byte0 (tableWord nbits w), byte1 (tableWord nbits w)] with
  | .ok (ins, _) => some ins
  | .error _ => none

end Sys2Proof
end

