-- ==== Sys2Proof/Machine/State.lean ====
section
/-! DEFINITION. The state of the machine (10_state.md R20) as plain data, its value after Reset
(10_state.md R42), the causes of a fatal condition, and the reasons a step can stop. -/

namespace Sys2Proof.Machine

/-- The 64 × 32 one-bit framebuffer as the array of booleans `FB[r][c]` of 10_state.md R33: 32 rows of 64
pixels. -/
abbrev Framebuffer := Vector (Vector Bool 64) 32

/-- The causes of a fatal condition (60_exceptions.md R150). A fatal condition is no stop of the model: it
is a next state with `HALT` set (entry 7). -/
inductive Cause where
  /-- A fetch, sprite read, BCD store or register load above address 4095. -/
  | outOfRange
  /-- A word that no row of the opcode map selects. -/
  | unimplementedOpcode
  /-- `2nnn` with the stack full. -/
  | stackOverflow
  /-- `00EE` with the stack empty. -/
  | stackUnderflow
  /-- `Ex9E` or `ExA1` with `V[x] > 15`. -/
  | keyCodeRange
  deriving DecidableEq, Repr

/-- Everything the spec gives the machine, and four fields of the model's own that hold the outside world's
free inputs. -/
structure State where
  /-- `V[0]` to `V[15]` (10_state.md R21, R22). -/
  v : Vector Byte 16
  /-- `I` (10_state.md R24). -/
  i : Word
  /-- `DT` (10_state.md R26). -/
  dt : Byte
  /-- `PC` (10_state.md R27). -/
  pc : Word
  /-- `STACK[0]` to `STACK[15]` (10_state.md R30). -/
  stack : Vector Word 16
  /-- `SP`, the number of frames in use, 0 to 16 (10_state.md R31). -/
  sp : Byte
  /-- `FB[r][c]` (10_state.md R33). -/
  fb : Framebuffer
  /-- `MEM` (10_state.md R36): the bytes that differ from the reset image of R37, by rising address. -/
  mem : List Host.Cell
  /-- `HALT` (10_state.md R39). -/
  halt : Bool
  /-- `FCAUSE` (10_state.md R39). -/
  fcause : BitVec 3
  /-- `FADDR` (10_state.md R39). -/
  faddr : Word
  /-- `FWORD` (10_state.md R39). -/
  fword : Word
  /-- The model's own: a Step has been performed since Reset (60_exceptions.md R170; entry 4). -/
  started : Bool
  /-- The model's own: the adapter's answers as latched for this Step, bit `k` for `KeyDown(k)`
  (60_exceptions.md R166; entry 1). -/
  keys : BitVec 16
  /-- The model's own: the random byte as latched for this Step (60_exceptions.md R167; entry 2). -/
  rnd : Byte
  /-- The model's own: the index of the next free inputs (entry 4). -/
  draws : Nat
  deriving DecidableEq, Repr

/-- The state after Reset (10_state.md R42, 70_reset_and_hazards.md R180). Memory lists nothing: an unlisted
address reads as the reset image. The last four fields are the model's own (entry 4). -/
def State.reset : State where
  v := Vector.replicate 16 0
  i := 0
  dt := 0
  pc := 0x200
  stack := Vector.replicate 16 0
  sp := 0
  fb := Vector.replicate 32 (Vector.replicate 64 false)
  mem := []
  halt := false
  fcause := 0
  faddr := 0
  fword := 0
  started := false
  keys := 0
  rnd := 0
  draws := 0

/-- The reasons the model stops with a fault. The fatal conditions of 60_exceptions.md are not among them:
they are next states with `HALT` set. -/
inductive Fault where
  /-- Raised by `RET` alone, when `SP` is above 16: 10_state.md R31 says that such a value is never reached,
  and there is no slot `STACK[SP - 1]` to pop. Safe: the model stops where the spec gives no effect, and no
  run from Reset comes there (entry 9). -/
  | stackPointerOutOfRange
  deriving DecidableEq, Repr

/-- The reasons the model refuses an instruction. -/
inductive Refusal where
  /-- An instruction that the model gives no meaning, by its mnemonic. No arm of `exec` raises it: all 21
  instructions have their meaning. Safe. -/
  | notModelled (mnemonic : String)
  deriving DecidableEq, Repr

/-- What an instruction or a step answers. -/
abbrev Result := Host.Outcome State Fault Refusal

end Sys2Proof.Machine
end

