-- ==== Sys2Proof/Machine/Memory.lean ====
section
/-! DEFINITION. The memory bank (10_state.md R36 to R38, 20_memory.md R50 to R58): 4096 bytes, held as the
list of the bytes that differ from the reset image, by strictly rising address. -/

namespace Sys2Proof.Machine

/-- `MEM_SIZE` (00_scope.md R6): the addresses are 0 to 4095. -/
abbrev memSize : Nat := 4096

/-- `FONT_BASE` (00_scope.md R6). -/
abbrev fontBase : Nat := 0x050

/-- The address the program is loaded at (00_scope.md R6 `PROG_BASE`). -/
abbrev progBase : Nat := 0x200

/-- The largest program, in bytes (00_scope.md R6 `PROG_MAX`). -/
abbrev progMax : Nat := 0xE00

/-- The default value of the parameter `FONT[0..79]`, 16 glyphs of 5 bytes (10_state.md R38).
PRESUMED: the spec itself takes the values from general knowledge (93_implementation_defined.md G1; entry 5). -/
def defaultFontBytes : List Byte :=
  [0xF0, 0x90, 0x90, 0x90, 0xF0] ++ [0x20, 0x60, 0x20, 0x20, 0x70] ++
  [0xF0, 0x10, 0xF0, 0x80, 0xF0] ++ [0xF0, 0x10, 0xF0, 0x10, 0xF0] ++
  [0x90, 0x90, 0xF0, 0x10, 0x10] ++ [0xF0, 0x80, 0xF0, 0x10, 0xF0] ++
  [0xF0, 0x80, 0xF0, 0x90, 0xF0] ++ [0xF0, 0x10, 0x20, 0x40, 0x40] ++
  [0xF0, 0x90, 0xF0, 0x90, 0xF0] ++ [0xF0, 0x90, 0xF0, 0x10, 0xF0] ++
  [0xF0, 0x90, 0xF0, 0x90, 0x90] ++ [0xE0, 0x90, 0xE0, 0x90, 0xE0] ++
  [0xF0, 0x80, 0x80, 0x80, 0xF0] ++ [0xE0, 0x90, 0x90, 0x90, 0xE0] ++
  [0xF0, 0x80, 0xF0, 0x80, 0xF0] ++ [0xF0, 0x80, 0xF0, 0x80, 0x80]

/-- The parameter `FONT[0..79]` (00_scope.md R6; the spec's decision D19): 80 bytes, glyph `g` from `5 g` on. -/
abbrev Font := Vector Byte 80

/-- The value of `FONT` that a model uses unless told otherwise (10_state.md R38). -/
def defaultFont : Font := ⟨defaultFontBytes.toArray, rfl⟩

/-- What an unlisted address reads as: the reset image of 10_state.md R37 for the default font, the font at
0x050 and zero everywhere else. A machine with another `FONT` lists the bytes in which its font differs
(entry 24). -/
def resetByte (a : Nat) : Byte := if a < fontBase then 0 else defaultFontBytes.getD (a - fontBase) 0

/-- The byte at an address. -/
def Memory.read (a : Nat) : List Host.Cell → Byte
  | [] => resetByte a
  | (a', b') :: m => if a = a' then b' else Memory.read a m

/-- The memory with nothing listed at an address. -/
def Memory.erase (a : Nat) (m : List Host.Cell) : List Host.Cell := m.filter fun c => c.1 != a

/-- The memory with an entry put in its place by address. -/
def Memory.insert (a : Nat) (b : Byte) : List Host.Cell → List Host.Cell
  | [] => [(a, b)]
  | (a', b') :: m => if a < a' then (a, b) :: (a', b') :: m else (a', b') :: Memory.insert a b m

/-- The memory after a byte is stored; a byte that equals the reset image is not listed. -/
def Memory.write (a : Nat) (b : Byte) (m : List Host.Cell) : List Host.Cell :=
  if b = resetByte a then Memory.erase a m else Memory.insert a b (Memory.erase a m)

/-- The entries lie in the bank, from address `lo` on, by strictly rising address, and none equals the reset
image. -/
def Memory.wfFrom (lo : Nat) : List Host.Cell → Bool
  | [] => true
  | (a, b) :: m => decide (lo ≤ a) && decide (a < memSize) && decide (b ≠ resetByte a) && Memory.wfFrom (a + 1) m

/-- The canonical form of the memory list: equal memories are equal lists. -/
def Memory.wf (m : List Host.Cell) : Bool := Memory.wfFrom 0 m

/-- `MEM[a]`. -/
def State.memByte (s : State) (a : Nat) : Byte := Memory.read a s.mem

/-- `MEM[a] <- b`, for an address of the bank. -/
def State.setMem (s : State) (a : Nat) (b : Byte) : State := { s with mem := Memory.write a b s.mem }

/-- Bytes copied to memory from address `a` on. -/
def State.storeBytes (s : State) (a : Nat) : List Byte → State
  | [] => s
  | b :: bs => State.storeBytes (s.setMem a b) (a + 1) bs

/-- The state after Reset of the machine whose parameter `FONT` is `f` (10_state.md R37, R42): the font is seeded
at 0x050. For the default font it is `State.reset`. -/
def State.resetWith (f : Font) : State := State.reset.storeBytes fontBase f.toList

/-- `MemRead(addr, 1)` (00_scope.md R14): the byte, or the out-of-range address. -/
def State.memRead (s : State) (a : Nat) : Except Nat Byte :=
  if a < memSize then .ok (s.memByte a) else .error a

end Sys2Proof.Machine
end

