-- ==== Sys2Proof/Machine/Ops.lean ====
section
/-! DEFINITION. The named operations over registers, pc, call stack, framebuffer, fetch, the fatal entry,
the delay timer and the inputs. -/

namespace Sys2Proof.Machine

/-! ### General registers (10_state.md R21) -/

/-- `V[x]`. -/
def State.getV (s : State) (x : Reg) : Byte := s.v[x.toNat]'x.isLt

/-- `V[x] <- b`. -/
def State.setV (s : State) (x : Reg) (b : Byte) : State := { s with v := s.v.set x.toNat b x.isLt }

/-- VF, `V[15]` (10_state.md R22). -/
def vf : Reg := 0xF#4

/-! ### Program counter (30_encoding.md R77) -/

/-- `pc <- pc + 2`, the advance of an instruction that transfers no control. -/
def State.advance (s : State) : State := { s with pc := s.pc + 2 }

/-- `pc <- pc + 4` when the condition of a skip holds, `pc <- pc + 2` when it does not. -/
def State.skipIf (s : State) (holds : Bool) : State := { s with pc := s.pc + if holds then 4 else 2 }

/-- `pc <- t`. -/
def State.jump (s : State) (t : Word) : State := { s with pc := t }

/-! ### Call stack (10_state.md R32) -/

/-- Push: `STACK[SP] <- a; SP <- SP + 1`, or nothing when all 16 slots are in use. -/
def State.push? (s : State) (a : Word) : Option State :=
  if h : s.sp.toNat < 16 then some { s with stack := s.stack.set s.sp.toNat a h, sp := s.sp + 1 } else none

/-- Pop: `SP <- SP - 1; result <- STACK[SP]`, or nothing when no slot is `STACK[SP - 1]`. The popped slot
keeps its value. -/
def State.pop? (s : State) : Option (Word × State) :=
  if h : 1 ≤ s.sp.toNat ∧ s.sp.toNat ≤ 16 then
    some (s.stack[s.sp.toNat - 1]'(by omega), { s with sp := s.sp - 1 })
  else none

/-! ### Framebuffer (10_state.md R33) -/

/-- `FB[r][c]` of a framebuffer. -/
def Framebuffer.get (fb : Framebuffer) (r : Fin 32) (c : Fin 64) : Bool := (fb[r.val]'r.isLt)[c.val]'c.isLt

/-- `FB[r][c] <- b` in a framebuffer. -/
def Framebuffer.put (fb : Framebuffer) (r : Fin 32) (c : Fin 64) (b : Bool) : Framebuffer :=
  fb.set r.val ((fb[r.val]'r.isLt).set c.val b c.isLt) r.isLt

/-- `FB[r][c]`. -/
def State.pixel (s : State) (r : Fin 32) (c : Fin 64) : Bool := Framebuffer.get s.fb r c

/-! ### Fatal conditions (60_exceptions.md R150, R153) -/

/-- The cause codes of 60_exceptions.md R150. -/
def Cause.code : Cause → BitVec 3
  | .outOfRange => 1
  | .unimplementedOpcode => 2
  | .stackOverflow => 3
  | .stackUnderflow => 4
  | .keyCodeRange => 5

/-- Taking a fatal condition (60_exceptions.md R153, R154): the halt latch is set, the fault record is
written, and nothing else changes, `PC` included. There is no handler and no saved return state. -/
def State.raise (s : State) (c : Cause) (addr word : Word) : State :=
  { s with halt := true, fcause := c.code, faddr := addr, fword := word }

/-- The only way out of a fatal condition (60_exceptions.md R155): Reset puts every piece of the machine's
state at its reset value (70_reset_and_hazards.md R180), the memory's font being the parameter `FONT` of the
machine. The index of the outside world's inputs is no state of the machine and goes on (entry 4). -/
def State.resetOp (f : Font) (s : State) : State := { State.resetWith f with draws := s.draws }

/-! ### Fetch (30_encoding.md R75) -/

/-- `MemRead(pc, 2)`: the big-endian word at `pc`, or the lowest out-of-range address of the pair. -/
def State.fetch (s : State) : Except Word Word :=
  match s.memRead s.pc.toNat with
  | .error a => .error (BitVec.ofNat 16 a)
  | .ok b0 =>
    match s.memRead (s.pc.toNat + 1) with
    | .error a => .error (BitVec.ofNat 16 a)
    | .ok b1 => .ok (wordOfBytes b0 b1)

/-! ### Delay timer (60_exceptions.md R160) -/

/-- The Tick operation. -/
def State.tick (s : State) : State :=
  { s with dt := if s.halt = false ∧ s.dt ≠ 0 then s.dt - 1 else s.dt }

/-- `DT` after `n` Ticks: it falls by one in each and stays at 0. -/
def dtAfter (n : Nat) (dt : Byte) : Byte := if dt = 0 then 0 else BitVec.ofNat 8 (dt.toNat - n)

/-- `n` Ticks of a machine that is not halted, in closed form; `ticks_eq_iterate_tick` says that it is. -/
def State.ticks (s : State) (n : Nat) : State := { s with dt := dtAfter n s.dt }

/-! ### Inputs of a Step (00_scope.md R16) -/

/-- The answer to `KeyDown(k)` (60_exceptions.md R166). -/
def State.keyDown (s : State) (k : Byte) : Bool := s.keys.getLsbD k.toNat

/-- The inputs of the Step that begins: the adapter's answers and the random byte. -/
def State.latch (s : State) (keys : BitVec 16) (rnd : Byte) : State :=
  { s with keys := keys, rnd := rnd, started := true }

/-- The outside world between two Steps: a free number of Ticks, then free inputs for the Step that begins
(60_exceptions.md R163, R166, R167; entries 1 to 3). -/
def State.advanceWorld (s : State) : State :=
  { ((s.ticks (Config.freeTicks s.draws)).latch (Config.freeKeys s.draws) (Config.freeRnd s.draws)) with
    draws := s.draws + 1 }

end Sys2Proof.Machine
end

