-- ==== Sys2Proof/Machine/Operands.lean ====
section
/-! DEFINITION. The operand forms: register direct is `State.getV`, an immediate stands in the instruction,
and here are the base-plus-offset form (42_index_memory.md R124), the font address, the decimal digits and
the sprite coordinates. -/

namespace Sys2Proof.Machine

/-- The effective address `I + k`: the mathematical sum, reduced by nothing (42_index_memory.md R124). -/
def State.ea (s : State) (k : Nat) : Nat := s.i.toNat + k

/-- An access to the `len` bytes from `I` on lies in the bank; an access to no byte always does
(20_memory.md R58, 43_draw.md R137). -/
def State.accessFits (s : State) (len : Nat) : Bool := len = 0 || s.ea (len - 1) < memSize

/-- The lowest address above 4095 that an access from `I` on needs when it does not fit (60_exceptions.md
R150): 0x1000 for every `I` of the bank. Above it, which no run reaches, `I` itself (entry 8). -/
def State.firstOutOfRange (s : State) : Word := if s.i.toNat < memSize then 0x1000 else s.i

/-- `0x050 + 5 × v`, with the whole 8-bit value unmasked (42_index_memory.md R121). -/
def fontAddress (v : Byte) : Word := BitVec.ofNat 16 (fontBase + 5 * v.toNat)

/-- The hundreds digit (42_index_memory.md R122). -/
def hundreds (v : Byte) : Byte := BitVec.ofNat 8 (v.toNat / 100)

/-- The tens digit (42_index_memory.md R122). -/
def tens (v : Byte) : Byte := BitVec.ofNat 8 (v.toNat / 10 % 10)

/-- The units digit (42_index_memory.md R122). -/
def units (v : Byte) : Byte := BitVec.ofNat 8 (v.toNat % 10)

/-- The bit of a sprite row byte in column `col`: bit 7 is column 0 (43_draw.md R133).
PRESUMED: the spec itself takes the order from general knowledge (entry 6). -/
def spriteBit (rowByte : Byte) (col : Nat) : Bool := rowByte.getLsbD (7 - col)

/-- The screen column of a sprite column (43_draw.md R132). -/
def screenColumn (px : Byte) (col : Nat) : Fin 64 := Fin.ofNat 64 (px.toNat + col)

/-- The screen row of a sprite row (43_draw.md R132). -/
def screenRow (py : Byte) (row : Nat) : Fin 32 := Fin.ofNat 32 (py.toNat + row)

end Sys2Proof.Machine
end

