-- ==== Sys2Proof/Machine/ControlFlow.lean ====
section
/-! DEFINITION. Control flow (40_control_flow.md): `00EE`, `1nnn`, `2nnn`, `3xkk`, `4xkk`. -/

namespace Sys2Proof.Machine

/-- `RET` (40_control_flow.md R100): the popped value is the next pc, with no further advance. -/
def execRet (s : State) : Result :=
  if s.sp = 0 then .next (s.raise .stackUnderflow s.pc (encode .ret))
  else
    match s.pop? with
    | some (a, s') => .next (s'.jump a)
    | none => .fault .stackPointerOutOfRange

/-- `JP nnn` (40_control_flow.md R101). -/
def execJp (nnn : Word) (s : State) : Result := .next (s.jump nnn)

/-- `CALL nnn` (40_control_flow.md R102): the address of the next instruction is pushed. -/
def execCall (nnn : Word) (s : State) : Result :=
  match s.push? (s.pc + 2) with
  | some s' => .next (s'.jump nnn)
  | none => .next (s.raise .stackOverflow s.pc (encode (.call nnn)))

/-- `SE Vx, kk` (40_control_flow.md R103). -/
def execSe (x : Reg) (kk : Byte) (s : State) : Result := .next (s.skipIf (s.getV x == kk))

/-- `SNE Vx, kk` (40_control_flow.md R104). -/
def execSne (x : Reg) (kk : Byte) (s : State) : Result := .next (s.skipIf (s.getV x != kk))

end Sys2Proof.Machine
end

