-- ==== Sys2Proof/Machine/Flags.lean ====
section
/-! DEFINITION. The values that VF takes as a flag (10_state.md R41): exactly 0 or 1. -/

namespace Sys2Proof.Machine

/-- A condition as the value of VF. -/
def flag (holds : Bool) : Byte := if holds then 1 else 0

/-- The carry out of `8xy4`: 1 when `a + b > 255` (41_register_arith.md R114). -/
def carryFlag (a b : Byte) : Byte := flag (decide (a.toNat + b.toNat > 255))

/-- The no-borrow of `8xy5`: 1 when `a >= b` (41_register_arith.md R115). -/
def noBorrowFlag (a b : Byte) : Byte := flag (decide (a.toNat ≥ b.toNat))

/-- The collision of `Dxyn`: 1 when a sprite bit of 1 landed on a pixel that was 1 (43_draw.md R135). -/
def collisionFlag (collided : Bool) : Byte := flag collided

end Sys2Proof.Machine
end

