-- ==== Sys2Proof/Machine/IndexMemory.lean ====
section
/-! DEFINITION. Index register and memory (42_index_memory.md): `Annn`, `Fx29`, `Fx33`, `Fx65`. No access
modifies `I` (R124). -/

namespace Sys2Proof.Machine

/-- The fatal end of a data access that leaves the bank (20_memory.md R58): raised before any effect of the
instruction (60_exceptions.md R154). -/
def State.raiseDataRange (s : State) (ins : Instr) : State := s.raise .outOfRange s.firstOutOfRange (encode ins)

/-- `I <- a`. -/
def State.setI (s : State) (a : Word) : State := { s with i := a }

/-- The three stores of `Fx33`, at ascending addresses (20_memory.md R54). -/
def State.storeDigits (s : State) (v : Byte) : State :=
  ((s.setMem (s.ea 0) (hundreds v)).setMem (s.ea 1) (tens v)).setMem (s.ea 2) (units v)

/-- The loads of `Fx65`: `V[j] <- MEM[I + j]` for `j` from 0 up, `count` of them. -/
def State.loadRegs (s : State) (count : Nat) : State :=
  (List.range count).foldl (fun t j => t.setV (BitVec.ofNat 4 j) (s.memByte (s.ea j))) s

/-- `LD I, nnn` (42_index_memory.md R120). -/
def execLdI (nnn : Word) (s : State) : Result := .next (s.setI nnn).advance

/-- `LD F, Vx` (42_index_memory.md R121). -/
def execLdF (x : Reg) (s : State) : Result := .next (s.setI (fontAddress (s.getV x))).advance

/-- `LD B, Vx` (42_index_memory.md R122). -/
def execLdB (x : Reg) (s : State) : Result :=
  if s.accessFits 3 then .next (s.storeDigits (s.getV x)).advance
  else .next (s.raiseDataRange (.ldB x))

/-- `LD Vx, [I]` (42_index_memory.md R123): registers `V[0]` to `V[x]`, both included. -/
def execLdRegs (x : Reg) (s : State) : Result :=
  if s.accessFits (x.toNat + 1) then .next (s.loadRegs (x.toNat + 1)).advance
  else .next (s.raiseDataRange (.ldRegs x))

end Sys2Proof.Machine
end

