-- ==== Sys2Proof/Machine/Draw.lean ====
section
/-! DEFINITION. Sprite draw (43_draw.md): `Dxyn`, the XOR compositor and collision detection. The loops are
those of R130; `Laws/Draw.lean` says what they come to. -/

namespace Sys2Proof.Machine

/-- A framebuffer being drawn into, and whether a collision has occurred so far (43_draw.md R135). -/
abbrev Canvas := Framebuffer × Bool

/-- One sprite bit onto one pixel (43_draw.md R134, R135). -/
def Canvas.compose (cv : Canvas) (r : Fin 32) (c : Fin 64) (bit : Bool) : Canvas :=
  let old := Framebuffer.get cv.1 r c
  (Framebuffer.put cv.1 r c (old ^^ bit), cv.2 || (old && bit))

/-- One sprite row: eight columns (43_draw.md R130, inner loop). -/
def Canvas.drawRow (cv : Canvas) (px : Byte) (r : Fin 32) (rowByte : Byte) : Canvas :=
  (List.range 8).foldl (fun t col => Canvas.compose t r (screenColumn px col) (spriteBit rowByte col)) cv

/-- The sprite: `n` rows, row `row` being `sprite row` (43_draw.md R130, outer loop). -/
def Canvas.drawSprite (cv : Canvas) (px py : Byte) (n : Nat) (sprite : Nat → Byte) : Canvas :=
  (List.range n).foldl (fun t row => Canvas.drawRow t px (screenRow py row) (sprite row)) cv

/-- `DRW Vx, Vy, n` (43_draw.md R130): the position is latched before VF is written (R138), the sprite is the
`n` bytes from `I` on (R131), and VF is written once, at the end, and always (R135). -/
def execDrw (x y : Reg) (n : Nat) (s : State) : Result :=
  if s.accessFits n then
    let drawn := Canvas.drawSprite (s.fb, false) (s.getV x) (s.getV y) n fun row => s.memByte (s.ea row)
    .next (({ s with fb := drawn.1 } : State).setV vf (collisionFlag drawn.2)).advance
  else .next (s.raiseDataRange (.drw x y n))

end Sys2Proof.Machine
end

