-- ==== Sys2Proof/Machine/KeysTimer.lean ====
section
/-! DEFINITION. Key tests and delay-timer access (44_keys_timer.md): `Ex9E`, `ExA1`, `Fx07`, `Fx15`. -/

namespace Sys2Proof.Machine

/-- A key test with the answers latched for this Step: the key code is the whole of `V[x]`, above 15 is the
fatal `KeyCodeRange`, and the skip is taken when the answer is `wanted` (44_keys_timer.md R144; entry 12). -/
def State.keyTest (s : State) (x : Reg) (wanted : Bool) (ins : Instr) : State :=
  if (s.getV x).toNat > 15 then s.raise .keyCodeRange s.pc (encode ins)
  else s.skipIf (s.keyDown (s.getV x) == wanted)

/-- `SKP Vx` (44_keys_timer.md R140). -/
def execSkp (x : Reg) (s : State) : Result := .next (s.keyTest x true (.skp x))

/-- `SKNP Vx` (44_keys_timer.md R141). -/
def execSknp (x : Reg) (s : State) : Result := .next (s.keyTest x false (.sknp x))

/-- `LD Vx, DT` (44_keys_timer.md R142). -/
def execLdVxDt (x : Reg) (s : State) : Result := .next (s.setV x s.dt).advance

/-- `LD DT, Vx` (44_keys_timer.md R143). -/
def execLdDtVx (x : Reg) (s : State) : Result := .next ({ s with dt := s.getV x } : State).advance

end Sys2Proof.Machine
end

