-- ==== Sys2Proof/Machine/RegisterArith.lean ====
section
/-! DEFINITION. Register load, arithmetic, logic and random (41_register_arith.md): `6xkk`, `7xkk`, `8xy0`,
`8xy2`, `8xy4`, `8xy5`, `Cxkk`. Arithmetic is on unsigned bytes and wraps modulo 256 (R117). -/

namespace Sys2Proof.Machine

/-- The end of `8xy4`, `8xy5`: `V[x]` is written first and VF second, so with `x = F` the flag stays
(41_register_arith.md R118; entry 15). -/
def State.setVThenFlag (s : State) (x : Reg) (result flagValue : Byte) : State :=
  (s.setV x result).setV vf flagValue

/-- `LD Vx, kk` (41_register_arith.md R110). -/
def execLdImm (x : Reg) (kk : Byte) (s : State) : Result := .next (s.setV x kk).advance

/-- `ADD Vx, kk` (41_register_arith.md R111): no flag. -/
def execAddImm (x : Reg) (kk : Byte) (s : State) : Result := .next (s.setV x (s.getV x + kk)).advance

/-- `LD Vx, Vy` (41_register_arith.md R112). -/
def execLdReg (x y : Reg) (s : State) : Result := .next (s.setV x (s.getV y)).advance

/-- `AND Vx, Vy` (41_register_arith.md R113): no flag. -/
def execAndReg (x y : Reg) (s : State) : Result := .next (s.setV x (s.getV x &&& s.getV y)).advance

/-- `ADD Vx, Vy` (41_register_arith.md R114): both operands are read before a register is written. -/
def execAddReg (x y : Reg) (s : State) : Result :=
  let a := s.getV x
  let b := s.getV y
  .next (s.setVThenFlag x (a + b) (carryFlag a b)).advance

/-- `SUB Vx, Vy` (41_register_arith.md R115): both operands are read before a register is written. -/
def execSubReg (x y : Reg) (s : State) : Result :=
  let a := s.getV x
  let b := s.getV y
  .next (s.setVThenFlag x (a - b) (noBorrowFlag a b)).advance

/-- `RND Vx, kk` (41_register_arith.md R116): the random byte is the input latched for this Step. -/
def execRnd (x : Reg) (kk : Byte) (s : State) : Result := .next (s.setV x (s.rnd &&& kk)).advance

end Sys2Proof.Machine
end

