-- ==== Sys2Proof/Machine/Cycle.lean ====
section
/-! DEFINITION. One fetch-decode-execute cycle (30_encoding.md R74), and the layout of an instruction in
memory. -/

namespace Sys2Proof.Machine

/-- The Step of 30_encoding.md R74 of a machine that is not halted, its inputs already latched: the first
stage to fail wins (60_exceptions.md R152). -/
def cycle (s : State) : Result :=
  match s.fetch with
  | .error a => .next (s.raise .outOfRange a 0)
  | .ok w =>
    match decodeWord w with
    | none => .next (s.raise .unimplementedOpcode s.pc w)
    | some ins => exec ins s

/-- The word `w` laid out big-endian where the machine fetches its next instruction, for a pc whose two bytes
lie in the bank; nothing where they do not (entry 20). -/
def State.placeWord (s : State) (w : Word) : State :=
  if s.pc.toNat + 1 < memSize then s.storeBytes s.pc.toNat [byte0 w, byte1 w] else s

end Sys2Proof.Machine
end

