-- ==== Sys2Proof/Machine/Step.lean ====
section
/-! DEFINITION. The step of the model: the outside world's move, then one Step (00_scope.md R8, R9). -/

namespace Sys2Proof.Machine

/-- A halted machine does nothing (60_exceptions.md R155). Otherwise a free number of Ticks falls, the free
inputs of the Step are latched (60_exceptions.md R163, R166, R167), and one fetch-decode-execute cycle runs
(30_encoding.md R74). -/
def step (s : State) : Host.Outcome State Fault Refusal :=
  if s.halt then .next s else cycle s.advanceWorld

/-- The state with an instruction stored where `step` fetches its next one. -/
def State.withFetchWord (s : State) (nbits w : Nat) : State := s.placeWord (tableWord nbits w)

end Sys2Proof.Machine
end

