-- ==== Sys2Proof/Machine/Operations.lean ====
section
/-! DEFINITION. The five operations of 00_scope.md R8 as moves of the outside world, with the inputs of a
Step as arguments: a list of them is any interleaving the spec admits (60_exceptions.md R163). -/

namespace Sys2Proof.Machine

/-- Load is accepted only after Reset and before the first Step, with `HALT = 0`, and for at most 0xE00 bytes
(60_exceptions.md R170; entry 18). -/
def State.loadAccepted (s : State) (bytes : List Byte) : Bool :=
  !s.started && !s.halt && decide (bytes.length ≤ progMax)

/-- The Load operation (60_exceptions.md R170): the bytes are copied verbatim from 0x200 on; a refused Load
changes no state. -/
def State.load (s : State) (bytes : List Byte) : State :=
  if s.loadAccepted bytes then s.storeBytes progBase bytes else s

/-- The Step operation with its oracle answers given (60_exceptions.md R155, R166, R167). -/
def stepWith (keys : BitVec 16) (rnd : Byte) (s : State) : Result :=
  if s.halt then .next s else cycle (s.latch keys rnd)

/-- The Present operation's answer (60_exceptions.md R168): 2048 booleans, row-major, row 0 first. -/
def State.present (s : State) : List Bool := s.fb.toList.flatMap Vector.toList

/-- The operations (00_scope.md R8). -/
inductive Op where
  | reset
  | load (bytes : List Byte)
  | step (keys : BitVec 16) (rnd : Byte)
  | tick
  | present
  deriving DecidableEq, Repr

/-- One operation of the machine whose parameter `FONT` is `f`, which Reset alone uses (00_scope.md R6; entry 5).
Present answers `State.present` and changes nothing. -/
def applyOp (f : Font) : Op → State → Result
  | .reset, s => .next (s.resetOp f)
  | .load bytes, s => .next (s.load bytes)
  | .step keys rnd, s => stepWith keys rnd s
  | .tick, s => .next s.tick
  | .present, s => .next s

/-- A sequence of operations of one machine, ending at the first stop. -/
def applyOps (f : Font) : List Op → State → Result
  | [], s => .next s
  | op :: ops, s =>
    match applyOp f op s with
    | .next s' => applyOps f ops s'
    | .fault r => .fault r
    | .refused r => .refused r

end Sys2Proof.Machine
end

