-- ==== Sys2Proof/Safety.lean ====
section
/-! DEFINITION. What counts as a good state and a safe run, and the words the statements use for what an
instruction leaves unchanged. -/

namespace Sys2Proof.Machine

/-! ### Invariants of every reachable state (10_state.md R43) -/

/-- What holds in every state reachable from Reset by the five operations: the bounds of 10_state.md R43, the
fault record empty exactly while the machine runs, Load's window (60_exceptions.md R170) closed once halted,
and the canonical form of the memory list. -/
structure Inv (s : State) : Prop where
  sp_le : s.sp.toNat ≤ 16
  i_le : s.i.toNat ≤ 0xFFF
  pc_le : s.pc.toNat ≤ 0x1002
  frames_le : ∀ k : Fin 16, k.val < s.sp.toNat → (s.stack[k.val]'k.isLt).toNat ≤ 0x1000
  running_iff : s.halt = false ↔ s.fcause = 0
  record_empty : s.halt = false → s.faddr = 0 ∧ s.fword = 0
  halted_started : s.halt = true → s.started = true
  mem_wf : Memory.wf s.mem = true

/-- A halted machine (00_scope.md R18); a fault state, never a successful end of a run (60_exceptions.md R155). -/
def Halted (s : State) : Prop := s.halt = true

/-- The machine is settled: it runs and the instruction at `PC` is a jump to itself
(70_reset_and_hazards.md R191). -/
def Settled (s : State) : Prop :=
  s.halt = false ∧ ∃ w, s.fetch = .ok w ∧ decodeWord w = some (.jp s.pc)

/-- The outcome is a next state of which `P` holds. -/
def Completes (r : Result) (P : State → Prop) : Prop := ∃ t, r = .next t ∧ P t

/-- The outcome is no stop: neither a fault nor a refusal. -/
def NoStop (r : Result) : Prop := Completes r fun _ => True

/-! ### What is left unchanged, read through the model's own accessors -/

/-- Every general register reads as before. -/
def SameRegs (s t : State) : Prop := ∀ z : Reg, t.getV z = s.getV z

/-- Every general register but `x` reads as before. -/
def SameRegsBut (x : Reg) (s t : State) : Prop := ∀ z : Reg, z ≠ x → t.getV z = s.getV z

/-- Every byte of memory reads as before. -/
def SameMem (s t : State) : Prop := ∀ a : Nat, t.memByte a = s.memByte a

/-- Every pixel is as before. -/
def SameScreen (s t : State) : Prop := ∀ (r : Fin 32) (c : Fin 64), t.pixel r c = s.pixel r c

/-- The call stack is as before: the pointer and every slot. -/
def SameStack (s t : State) : Prop :=
  t.sp = s.sp ∧ ∀ k : Fin 16, (t.stack[k.val]'k.isLt) = (s.stack[k.val]'k.isLt)

/-- The halt latch and the fault record are as before. -/
def SameRecord (s t : State) : Prop :=
  t.halt = s.halt ∧ t.fcause = s.fcause ∧ t.faddr = s.faddr ∧ t.fword = s.fword

/-- The model's own fields, which hold the outside world's inputs, are as before. -/
def SameInputs (s t : State) : Prop :=
  t.keys = s.keys ∧ t.rnd = s.rnd ∧ t.started = s.started ∧ t.draws = s.draws

/-- `I` and `DT` are as before. -/
def SameIndexTimer (s t : State) : Prop := t.i = s.i ∧ t.dt = s.dt

/-- Memory, screen, call stack, fault record and inputs are as before. -/
def SameOutside (s t : State) : Prop :=
  SameMem s t ∧ SameScreen s t ∧ SameStack s t ∧ SameRecord s t ∧ SameInputs s t

/-- The machine took the fatal condition `c` with this record, and nothing else changed: `PC`, every register,
memory, the screen and the call stack are as before (60_exceptions.md R153, R154). -/
def TookFatal (c : BitVec 3) (addr word : Word) (s t : State) : Prop :=
  (t.halt = true ∧ t.fcause = c ∧ t.faddr = addr ∧ t.fword = word) ∧
  t.pc = s.pc ∧ SameRegs s t ∧ SameIndexTimer s t ∧ SameMem s t ∧ SameScreen s t ∧ SameStack s t ∧ SameInputs s t

/-! ### What the rows of the opcode map name -/

/-- The registers an instruction writes, from the table of 10_state.md R23. -/
def writesReg : Instr → Reg → Bool
  | .ret, _ => false
  | .jp _, _ => false
  | .call _, _ => false
  | .se _ _, _ => false
  | .sne _ _, _ => false
  | .ldImm x _, z => z == x
  | .addImm x _, z => z == x
  | .ldReg x _, z => z == x
  | .andReg x _, z => z == x
  | .addReg x _, z => z == x || z == 0xF#4
  | .subReg x _, z => z == x || z == 0xF#4
  | .ldI _, _ => false
  | .rnd x _, z => z == x
  | .drw _ _ _, z => z == 0xF#4
  | .skp _, _ => false
  | .sknp _, _ => false
  | .ldVxDt x, z => z == x
  | .ldDtVx _, _ => false
  | .ldF _, _ => false
  | .ldB _, _ => false
  | .ldRegs x, z => decide (z.toNat ≤ x.toNat)

/-- An instruction needs a data byte above address 4095, from the table of 60_exceptions.md R151. -/
def NeedsBeyondBank (ins : Instr) (s : State) : Prop :=
  (∃ x y n, ins = .drw x y n ∧ 1 ≤ n ∧ 4095 < s.i.toNat + n - 1) ∨
  (∃ x, ins = .ldB x ∧ 4095 < s.i.toNat + 2) ∨
  (∃ x, ins = .ldRegs x ∧ 4095 < s.i.toNat + x.toNat)

/-- A bit of 1 of the `n`-row sprite at `I`, drawn at `(px, py)`, lands on the pixel `FB[r][c]` (43_draw.md
R131 to R133: column `col` of a row is bit `7 - col` of its byte). -/
def SpriteBitOn (s : State) (px py : Byte) (n : Nat) (r : Fin 32) (c : Fin 64) : Prop :=
  ∃ row col : Nat, row < n ∧ col < 8 ∧ (py.toNat + row) % 32 = r.val ∧ (px.toNat + col) % 64 = c.val ∧
    (s.memByte (s.i.toNat + row)).getLsbD (7 - col) = true

/-- The match and mask of each row of the opcode map (30_encoding.md R78), in its order. -/
def opcodeRows : List (Word × Word) :=
  [(0x00EE, 0xFFFF), (0x1000, 0xF000), (0x2000, 0xF000), (0x3000, 0xF000), (0x4000, 0xF000),
   (0x6000, 0xF000), (0x7000, 0xF000)] ++
  [(0x8000, 0xF00F), (0x8002, 0xF00F), (0x8004, 0xF00F), (0x8005, 0xF00F)] ++
  [(0xA000, 0xF000), (0xC000, 0xF000), (0xD000, 0xF000), (0xE09E, 0xF0FF), (0xE0A1, 0xF0FF)] ++
  [(0xF007, 0xF0FF), (0xF015, 0xF0FF), (0xF029, 0xF0FF), (0xF033, 0xF0FF), (0xF065, 0xF0FF)]

/-! ### Bits of a word -/

/-- A word selects the row of the opcode map with this match and mask (30_encoding.md R78). -/
def Selects (pattern mask w : Word) : Prop := w &&& mask = pattern

end Sys2Proof.Machine
end

