-- ==== Sys2Proof/Certificates/Slice0/Obligations.lean ====
section
/-! DEFINITION. The statements for the provers. Each docstring names the rule of spec/ it formalises. An
`entry n` is notes/assumptions/n.md. -/

open Sys2Proof Sys2Proof.Machine

/-! ### Encoding -/

/-- Decoding the bytes of a well-formed instruction gives it back, whatever bytes follow
(30_encoding.md R70 to R73, R78). -/
def Obligations.EncodedInstructionDecodesBack : Prop :=
  ∀ (ins : Instr) (rest : List Byte), wellFormed ins = true →
    decode (encodeBytes ins ++ rest) = .ok (ins, rest)

/-- A word that decodes is the word of what it decodes to, so no two words share a meaning
(30_encoding.md R78, R82). -/
def Obligations.DecodedWordEncodesBack : Prop :=
  ∀ (w : Word) (ins : Instr), decodeWord w = some ins → wellFormed ins = true ∧ encode ins = w

/-- Words written out from the patterns decode to the instructions they stand for, one of each family
(95_test_vectors.md section 2). That `0x01EE` decodes to none is the spec's decision D14 (entry 17). -/
def Obligations.SampleWordsDecode : Prop :=
  decodeTableWord 16 0x00EE = some .ret ∧ decodeTableWord 16 0x1ABC = some (.jp 0xABC) ∧
  decodeTableWord 16 0x447E = some (.sne 4 0x7E) ∧ decodeTableWord 16 0x8F14 = some (.addReg 0xF 1) ∧
  decodeTableWord 16 0xC5F0 = some (.rnd 5 0xF0) ∧ decodeTableWord 16 0xF733 = some (.ldB 7) ∧
  decodeTableWord 16 0xD125 = some (.drw 1 2 5) ∧ decodeTableWord 16 0xE0A1 = some (.sknp 0) ∧
  decodeTableWord 16 0xF107 = some (.ldVxDt 1) ∧ decodeTableWord 16 0x01EE = none

/-- A word is unimplemented exactly when no row of the opcode map selects it, and a Step that fetches such a
word takes `UnimplementedOpcode` with the instruction's address and the word (30_encoding.md R79). The masks are
the spec's decision D14 (entry 17), the record's form its decision D2 (entry 7). -/
def Obligations.UnimplementedWordIsFatal : Prop :=
  (∀ w : Word, decodeWord w = none ↔ ∀ row ∈ opcodeRows, ¬ Selects row.1 row.2 w) ∧
  ∀ (keys : BitVec 16) (rnd : Byte) (s : State) (w : Word), s.halt = false → s.fetch = .ok w →
    (∀ row ∈ opcodeRows, ¬ Selects row.1 row.2 w) →
    Completes (stepWith keys rnd s) (TookFatal 2 s.pc w (s.latch keys rnd))

/-! ### The Step -/

/-- Where the bytes at `PC` decode to an instruction, the step is its meaning, at the state after the outside
world's move; with the inputs given, at the state with those inputs latched (30_encoding.md R74; the world's move
is the model's form, entries 1 to 4). -/
def Obligations.StepRunsDecodedInstruction : Prop :=
  ∀ (s : State) (ins : Instr), s.halt = false → s.pc.toNat + 1 < 4096 →
    decode [s.memByte s.pc.toNat, s.memByte (s.pc.toNat + 1)] = .ok (ins, []) →
    step s = exec ins s.advanceWorld ∧
    ∀ (keys : BitVec 16) (rnd : Byte), stepWith keys rnd s = exec ins (s.latch keys rnd)

/-- What a step adds before the instruction: the free number of Ticks and the free inputs at the Step's index, the
mark that a Step was performed, and the next index (60_exceptions.md R163, R166, R167; the form is the model's,
entries 1 to 4). -/
def Obligations.WorldMoveIsTicksAndInputs : Prop :=
  ∀ s : State, s.halt = false →
    s.advanceWorld.dt = (State.tick^[Config.freeTicks s.draws] s).dt ∧
    s.advanceWorld.keys = Config.freeKeys s.draws ∧ s.advanceWorld.rnd = Config.freeRnd s.draws ∧
    s.advanceWorld.started = true ∧ s.advanceWorld.draws = s.draws + 1 ∧
    s.advanceWorld.pc = s.pc ∧ s.advanceWorld.i = s.i ∧
    SameRegs s s.advanceWorld ∧ SameMem s s.advanceWorld ∧ SameScreen s s.advanceWorld ∧
    SameStack s s.advanceWorld ∧ SameRecord s s.advanceWorld

/-- The model's step is a run of the operations: the free number of Ticks, then one Step with the free inputs,
each taken at the index of the Step (00_scope.md R8, R9; 60_exceptions.md R163). The index, the model's own, is
set on (entry 4). -/
def Obligations.StepIsARunOfTheOperations : Prop :=
  ∀ (f : Font) (s : State), s.halt = false →
    step s =
      applyOps f
        (List.replicate (Config.freeTicks s.draws) .tick ++
          [.step (Config.freeKeys s.draws) (Config.freeRnd s.draws)])
        { s with draws := s.draws + 1 }

/-- Fetch reads the big-endian word at `PC`, odd or even, up to `PC = 0xFFE`; beyond it the Step takes
`OutOfRange` with the lowest out-of-range address of the pair and no word (30_encoding.md R75). That an odd `PC` is
no fault is the spec's decision D5 (entry 14), the record's form its decision D2 (entry 7). -/
def Obligations.FetchRule : Prop :=
  (∀ s : State, s.pc.toNat ≤ 0xFFE → ∃ w : Word, s.fetch = .ok w ∧
    w.toNat = 256 * (s.memByte s.pc.toNat).toNat + (s.memByte (s.pc.toNat + 1)).toNat) ∧
  ∀ (keys : BitVec 16) (rnd : Byte) (s : State), s.halt = false → 0xFFF ≤ s.pc.toNat →
    Completes (stepWith keys rnd s)
      (TookFatal 1 (if s.pc = 0xFFF then 0x1000 else s.pc) 0 (s.latch keys rnd))

/-- A fatal Step changes nothing but the halt latch and the fault record, and records one of the five causes
(60_exceptions.md R154; the spec's decision D3). -/
def Obligations.FatalStepIsPrecise : Prop :=
  ∀ (keys : BitVec 16) (rnd : Byte) (s t : State), s.halt = false → stepWith keys rnd s = .next t →
    t.halt = true →
    TookFatal t.fcause t.faddr t.fword (s.latch keys rnd) t ∧ 1 ≤ t.fcause.toNat ∧ t.fcause.toNat ≤ 5

/-- Which Steps raise which cause, and exactly when (60_exceptions.md R151; the range of `Fx33` and `Fx65` is the
spec's decision D6, key codes its D11, the codes its D2, entries 7, 12, 13). -/
def Obligations.CausesHaveTheirRaisers : Prop :=
  ∀ (keys : BitVec 16) (rnd : Byte) (s t : State), Inv s → s.halt = false → stepWith keys rnd s = .next t →
    (t.fcause = 1 ↔ 0xFFF ≤ s.pc.toNat ∨
      ∃ w ins, s.fetch = .ok w ∧ decodeWord w = some ins ∧ NeedsBeyondBank ins s) ∧
    (t.fcause = 2 ↔ ∃ w, s.fetch = .ok w ∧ decodeWord w = none) ∧
    (t.fcause = 3 ↔ ∃ w nnn, s.fetch = .ok w ∧ decodeWord w = some (.call nnn) ∧ s.sp = 16) ∧
    (t.fcause = 4 ↔ ∃ w, s.fetch = .ok w ∧ decodeWord w = some .ret ∧ s.sp = 0) ∧
    (t.fcause = 5 ↔ ∃ w x, s.fetch = .ok w ∧ (decodeWord w = some (.skp x) ∨ decodeWord w = some (.sknp x)) ∧
      15 < (s.getV x).toNat) ∧
    (t.halt = true ↔ t.fcause ≠ 0)

/-- A halted machine is left as it is by every operation but Reset: a Step, a Tick and a Load do nothing,
Present answers the same picture, and Reset alone runs again (60_exceptions.md R155; the spec's decision D4). -/
def Obligations.HaltedMachineIsAbsorbing : Prop :=
  ∀ (f : Font) (s : State), s.halt = true →
    step s = .next s ∧
    (∀ ops : List Op, Op.reset ∉ ops → applyOps f ops s = .next s) ∧
    Completes (applyOp f .reset s) fun t => t.halt = false

/-! ### Control flow -/

/-- `RET` (40_control_flow.md R100). The slots and what a popped one keeps are the spec's decision D15, the record's
form its decision D2 (entries 7, 10). -/
def Obligations.RetRule : Prop :=
  (∀ w : Word, Selects 0x00EE 0xFFFF w → decodeWord w = some .ret) ∧
  (∀ s : State, s.sp = 0 → Completes (exec .ret s) (TookFatal 4 s.pc 0x00EE s)) ∧
  ∀ s : State, 1 ≤ s.sp.toNat → s.sp.toNat ≤ 16 → Completes (exec .ret s) fun t =>
    t.sp.toNat + 1 = s.sp.toNat ∧
    (∀ k : Fin 16, k.val + 1 = s.sp.toNat → t.pc = s.stack[k.val]'k.isLt) ∧
    (∀ k : Fin 16, t.stack[k.val]'k.isLt = s.stack[k.val]'k.isLt) ∧
    SameRegs s t ∧ SameIndexTimer s t ∧ SameMem s t ∧ SameScreen s t ∧ SameRecord s t ∧ SameInputs s t

/-- The model's choice for stack pointers above 16, which 10_state.md R31 says are never reached: `RET`, for
which there is no slot, faults by name, and `CALL` overflows (entry 9). -/
def Obligations.StackPointerAboveSixteenStopsReturn : Prop :=
  ∀ s : State, 16 < s.sp.toNat → exec .ret s = .fault .stackPointerOutOfRange ∧
    ∀ nnn : Word, Completes (exec (.call nnn) s) (TookFatal 3 s.pc (encode (.call nnn)) s)

/-- `JP nnn` (40_control_flow.md R101). -/
def Obligations.JpRule : Prop :=
  (∀ w : Word, Selects 0x1000 0xF000 w → decodeWord w = some (.jp ((w.extractLsb' 0 12).setWidth 16))) ∧
  ∀ (nnn : Word) (s : State), Completes (exec (.jp nnn) s) fun t =>
    t.pc = nnn ∧ SameRegs s t ∧ SameIndexTimer s t ∧ SameOutside s t

/-- `CALL nnn` (40_control_flow.md R102). The slot a push uses is the spec's decision D15, the record's form its
decision D2 (entries 7, 10). -/
def Obligations.CallRule : Prop :=
  (∀ w : Word, Selects 0x2000 0xF000 w → decodeWord w = some (.call ((w.extractLsb' 0 12).setWidth 16))) ∧
  (∀ (nnn : Word) (s : State), s.sp.toNat < 16 → Completes (exec (.call nnn) s) fun t =>
    t.sp.toNat = s.sp.toNat + 1 ∧ t.pc = nnn ∧
    (∀ k : Fin 16, t.stack[k.val]'k.isLt = if k.val = s.sp.toNat then s.pc + 2 else s.stack[k.val]'k.isLt) ∧
    SameRegs s t ∧ SameIndexTimer s t ∧ SameMem s t ∧ SameScreen s t ∧ SameRecord s t ∧ SameInputs s t) ∧
  ∀ (w nnn : Word) (s : State), decodeWord w = some (.call nnn) → s.sp = 16 →
    Completes (exec (.call nnn) s) (TookFatal 3 s.pc w s)

/-- A `CALL`, then a `RET` from any state with the call stack the `CALL` left, comes back to the instruction
after the call with the pointer it had, and the frames below are untouched (40_control_flow.md R100, the
source's property; 95_test_vectors.md E7). -/
def Obligations.CallThenRetReturnsAfterCall : Prop :=
  ∀ (nnn : Word) (s t u : State), s.sp.toNat < 16 → exec (.call nnn) s = .next t → SameStack t u →
    Completes (exec .ret u) fun r => r.pc = s.pc + 2 ∧ r.sp = s.sp ∧
      ∀ k : Fin 16, k.val < s.sp.toNat → r.stack[k.val]'k.isLt = s.stack[k.val]'k.isLt

/-- `SE Vx, kk` (40_control_flow.md R103). -/
def Obligations.SeRule : Prop :=
  (∀ w : Word, Selects 0x3000 0xF000 w →
    decodeWord w = some (.se (w.extractLsb' 8 4) (w.extractLsb' 0 8))) ∧
  ∀ (x : Reg) (kk : Byte) (s : State), Completes (exec (.se x kk) s) fun t =>
    ((s.getV x).toNat = kk.toNat → t.pc = s.pc + 4) ∧ ((s.getV x).toNat ≠ kk.toNat → t.pc = s.pc + 2) ∧
    SameRegs s t ∧ SameIndexTimer s t ∧ SameOutside s t

/-- `SNE Vx, kk` (40_control_flow.md R104), and that with `SE` of the same operands exactly one skips. -/
def Obligations.SneRule : Prop :=
  (∀ w : Word, Selects 0x4000 0xF000 w →
    decodeWord w = some (.sne (w.extractLsb' 8 4) (w.extractLsb' 0 8))) ∧
  ∀ (x : Reg) (kk : Byte) (s : State), Completes (exec (.sne x kk) s) fun t =>
    ((s.getV x).toNat ≠ kk.toNat → t.pc = s.pc + 4) ∧ ((s.getV x).toNat = kk.toNat → t.pc = s.pc + 2) ∧
    SameRegs s t ∧ SameIndexTimer s t ∧ SameOutside s t ∧
    Completes (exec (.se x kk) s) fun u => (t.pc = s.pc + 4 ↔ ¬ u.pc = s.pc + 4)

/-! ### Register load, arithmetic, logic, random -/

/-- `LD Vx, kk` (41_register_arith.md R110). -/
def Obligations.LdImmediateRule : Prop :=
  (∀ w : Word, Selects 0x6000 0xF000 w →
    decodeWord w = some (.ldImm (w.extractLsb' 8 4) (w.extractLsb' 0 8))) ∧
  ∀ (x : Reg) (kk : Byte) (s : State), Completes (exec (.ldImm x kk) s) fun t =>
    t.getV x = kk ∧ SameRegsBut x s t ∧ t.pc = s.pc + 2 ∧ SameIndexTimer s t ∧ SameOutside s t

/-- `ADD Vx, kk` (41_register_arith.md R111): VF is not written as a flag. -/
def Obligations.AddImmediateRule : Prop :=
  (∀ w : Word, Selects 0x7000 0xF000 w →
    decodeWord w = some (.addImm (w.extractLsb' 8 4) (w.extractLsb' 0 8))) ∧
  ∀ (x : Reg) (kk : Byte) (s : State), Completes (exec (.addImm x kk) s) fun t =>
    (t.getV x).toNat = ((s.getV x).toNat + kk.toNat) % 256 ∧ SameRegsBut x s t ∧ t.pc = s.pc + 2 ∧
    SameIndexTimer s t ∧ SameOutside s t

/-- `LD Vx, Vy` (41_register_arith.md R112). -/
def Obligations.LdRegisterRule : Prop :=
  (∀ w : Word, Selects 0x8000 0xF00F w →
    decodeWord w = some (.ldReg (w.extractLsb' 8 4) (w.extractLsb' 4 4))) ∧
  ∀ (x y : Reg) (s : State), Completes (exec (.ldReg x y) s) fun t =>
    t.getV x = s.getV y ∧ SameRegsBut x s t ∧ t.pc = s.pc + 2 ∧ SameIndexTimer s t ∧ SameOutside s t

/-- `AND Vx, Vy` (41_register_arith.md R113): bit by bit, and no flag. -/
def Obligations.AndRule : Prop :=
  (∀ w : Word, Selects 0x8002 0xF00F w →
    decodeWord w = some (.andReg (w.extractLsb' 8 4) (w.extractLsb' 4 4))) ∧
  ∀ (x y : Reg) (s : State), Completes (exec (.andReg x y) s) fun t =>
    (∀ b : Nat, b < 8 →
      (t.getV x).getLsbD b = ((s.getV x).getLsbD b && (s.getV y).getLsbD b)) ∧
    SameRegsBut x s t ∧ t.pc = s.pc + 2 ∧ SameIndexTimer s t ∧ SameOutside s t

/-- `ADD Vx, Vy` (41_register_arith.md R114): the sum modulo 256 in `V[x]`, the carry in VF, both from the
values before; with `x = F` the carry stays, the spec's decision D10 (entry 15). -/
def Obligations.AddRule : Prop :=
  (∀ w : Word, Selects 0x8004 0xF00F w →
    decodeWord w = some (.addReg (w.extractLsb' 8 4) (w.extractLsb' 4 4))) ∧
  ∀ (x y : Reg) (s : State), Completes (exec (.addReg x y) s) fun t =>
    (x ≠ 0xF#4 → (t.getV x).toNat = ((s.getV x).toNat + (s.getV y).toNat) % 256) ∧
    (t.getV 0xF#4).toNat = (if (s.getV x).toNat + (s.getV y).toNat > 255 then 1 else 0) ∧
    (∀ z : Reg, z ≠ x → z ≠ 0xF#4 → t.getV z = s.getV z) ∧
    t.pc = s.pc + 2 ∧ SameIndexTimer s t ∧ SameOutside s t

/-- `SUB Vx, Vy` (41_register_arith.md R115): the difference modulo 256 in `V[x]`, 1 in VF for no borrow, both
from the values before; with `x = F` the flag stays, the spec's decision D10 (entry 15). -/
def Obligations.SubRule : Prop :=
  (∀ w : Word, Selects 0x8005 0xF00F w →
    decodeWord w = some (.subReg (w.extractLsb' 8 4) (w.extractLsb' 4 4))) ∧
  ∀ (x y : Reg) (s : State), Completes (exec (.subReg x y) s) fun t =>
    (x ≠ 0xF#4 → (t.getV x).toNat =
      if (s.getV y).toNat ≤ (s.getV x).toNat then (s.getV x).toNat - (s.getV y).toNat
      else (s.getV x).toNat + 256 - (s.getV y).toNat) ∧
    (t.getV 0xF#4).toNat = (if (s.getV y).toNat ≤ (s.getV x).toNat then 1 else 0) ∧
    (∀ z : Reg, z ≠ x → z ≠ 0xF#4 → t.getV z = s.getV z) ∧
    t.pc = s.pc + 2 ∧ SameIndexTimer s t ∧ SameOutside s t

/-- `RND Vx, kk` (41_register_arith.md R116): `r AND kk`, where `r` is the random byte latched for the Step,
any byte at all (entry 2). -/
def Obligations.RndRule : Prop :=
  (∀ w : Word, Selects 0xC000 0xF000 w →
    decodeWord w = some (.rnd (w.extractLsb' 8 4) (w.extractLsb' 0 8))) ∧
  ∀ (x : Reg) (kk : Byte) (s : State), Completes (exec (.rnd x kk) s) fun t =>
    (∀ b : Nat, b < 8 → (t.getV x).getLsbD b = (s.rnd.getLsbD b && kk.getLsbD b)) ∧
    SameRegsBut x s t ∧ t.pc = s.pc + 2 ∧ SameIndexTimer s t ∧ SameOutside s t

/-- After a completed `8xy4`, `8xy5` or `Dxyn`, VF is exactly 0 or 1 (10_state.md R22). -/
def Obligations.FlagWritersLeaveZeroOrOne : Prop :=
  ∀ (ins : Instr) (s t : State),
    ((∃ x y, ins = .addReg x y) ∨ (∃ x y, ins = .subReg x y) ∨ ∃ x y n, ins = .drw x y n) →
    exec ins s = .next t → t.halt = false → t.getV 0xF#4 = 0 ∨ t.getV 0xF#4 = 1

/-! ### Index register and memory -/

/-- `LD I, nnn` (42_index_memory.md R120). -/
def Obligations.LdIRule : Prop :=
  (∀ w : Word, Selects 0xA000 0xF000 w → decodeWord w = some (.ldI ((w.extractLsb' 0 12).setWidth 16))) ∧
  ∀ (nnn : Word) (s : State), Completes (exec (.ldI nnn) s) fun t =>
    t.i = nnn ∧ t.pc = s.pc + 2 ∧ SameRegs s t ∧ t.dt = s.dt ∧ SameOutside s t

/-- `LD F, Vx` (42_index_memory.md R121; unmasked, the spec's decision D13). -/
def Obligations.LdFontRule : Prop :=
  (∀ w : Word, Selects 0xF029 0xF0FF w → decodeWord w = some (.ldF (w.extractLsb' 8 4))) ∧
  ∀ (x : Reg) (s : State), Completes (exec (.ldF x) s) fun t =>
    t.i.toNat = 0x050 + 5 * (s.getV x).toNat ∧ t.pc = s.pc + 2 ∧ SameRegs s t ∧ t.dt = s.dt ∧ SameOutside s t

/-- `LD B, Vx` (42_index_memory.md R122): the three decimal digits at `I`, `I+1`, `I+2`, no other byte
written; beyond the bank the fatal `OutOfRange` and no byte written (the spec's decision D6). -/
def Obligations.LdBcdRule : Prop :=
  (∀ w : Word, Selects 0xF033 0xF0FF w → decodeWord w = some (.ldB (w.extractLsb' 8 4))) ∧
  (∀ (x : Reg) (s : State), s.i.toNat + 2 ≤ 4095 → Completes (exec (.ldB x) s) fun t =>
    (t.memByte s.i.toNat).toNat = (s.getV x).toNat / 100 ∧
    (t.memByte (s.i.toNat + 1)).toNat = (s.getV x).toNat / 10 % 10 ∧
    (t.memByte (s.i.toNat + 2)).toNat = (s.getV x).toNat % 10 ∧
    (∀ a : Nat, a < s.i.toNat ∨ s.i.toNat + 2 < a → t.memByte a = s.memByte a) ∧
    t.pc = s.pc + 2 ∧ SameRegs s t ∧ SameIndexTimer s t ∧ SameScreen s t ∧ SameStack s t ∧ SameRecord s t ∧
    SameInputs s t) ∧
  ∀ (w : Word) (x : Reg) (s : State), decodeWord w = some (.ldB x) → 4095 < s.i.toNat + 2 →
    s.i.toNat ≤ 0xFFF → Completes (exec (.ldB x) s) (TookFatal 1 0x1000 w s)

/-- `LD Vx, [I]` (42_index_memory.md R123): registers `V[0]` to `V[x]` from `I` on, `I` and memory unchanged;
beyond the bank the fatal `OutOfRange` and no register written (the spec's decisions D6, D12). -/
def Obligations.LdRegistersRule : Prop :=
  (∀ w : Word, Selects 0xF065 0xF0FF w → decodeWord w = some (.ldRegs (w.extractLsb' 8 4))) ∧
  (∀ (x : Reg) (s : State), s.i.toNat + x.toNat ≤ 4095 → Completes (exec (.ldRegs x) s) fun t =>
    (∀ z : Reg, z.toNat ≤ x.toNat → t.getV z = s.memByte (s.i.toNat + z.toNat)) ∧
    (∀ z : Reg, x.toNat < z.toNat → t.getV z = s.getV z) ∧
    t.pc = s.pc + 2 ∧ SameIndexTimer s t ∧ SameOutside s t) ∧
  ∀ (w : Word) (x : Reg) (s : State), decodeWord w = some (.ldRegs x) → 4095 < s.i.toNat + x.toNat →
    s.i.toNat ≤ 0xFFF → Completes (exec (.ldRegs x) s) (TookFatal 1 0x1000 w s)

/-- What an `Fx33` stores into the instruction stream the very next fetch reads, wherever `I` lies: digits in its
own word, which does not affect the running instruction, in the next word, in both, or in neither
(20_memory.md R63). -/
def Obligations.StoreIsSeenByNextFetch : Prop :=
  ∀ (keys : BitVec 16) (rnd : Byte) (w : Word) (x : Reg) (s : State), s.halt = false → s.fetch = .ok w →
    decodeWord w = some (.ldB x) → s.pc.toNat + 3 < 4096 → s.i.toNat + 2 ≤ 4095 →
    Completes (stepWith keys rnd s) fun t => t.pc = s.pc + 2 ∧ ∃ next : Word, t.fetch = .ok next ∧
      (s.i.toNat = s.pc.toNat →
        next.toNat = 256 * ((s.getV x).toNat % 10) + (s.memByte (s.pc.toNat + 3)).toNat) ∧
      (s.i.toNat = s.pc.toNat + 1 →
        next.toNat = 256 * ((s.getV x).toNat / 10 % 10) + (s.getV x).toNat % 10) ∧
      (s.i.toNat = s.pc.toNat + 2 →
        next.toNat = 256 * ((s.getV x).toNat / 100) + (s.getV x).toNat / 10 % 10) ∧
      (s.i.toNat = s.pc.toNat + 3 →
        next.toNat = 256 * (s.memByte (s.pc.toNat + 2)).toNat + (s.getV x).toNat / 100) ∧
      (s.i.toNat < s.pc.toNat ∨ s.pc.toNat + 3 < s.i.toNat →
        next.toNat = 256 * (s.memByte (s.pc.toNat + 2)).toNat + (s.memByte (s.pc.toNat + 3)).toNat)

/-! ### Sprite draw -/

/-- `DRW Vx, Vy, n` (43_draw.md R130, with R131 to R135): every pixel is XORed with the sprite bit that lands
on it on the torus, VF is 1 exactly when a bit of 1 landed on a set pixel, and beyond the bank the fatal
`OutOfRange` with no pixel changed. The bit order is the spec's decision D8 (entry 6), reading the position before
VF is written its D10 (entry 15), the draw of no rows its D7 (entry 16). -/
def Obligations.DrawRule : Prop :=
  (∀ w : Word, Selects 0xD000 0xF000 w →
    decodeWord w = some (.drw (w.extractLsb' 8 4) (w.extractLsb' 4 4) (w.extractLsb' 0 4).toNat)) ∧
  (∀ (x y : Reg) (n : Nat) (s : State), n < 16 → n = 0 ∨ s.i.toNat + n - 1 ≤ 4095 →
    Completes (exec (.drw x y n) s) fun t =>
      (∀ (r : Fin 32) (c : Fin 64), t.pixel r c = true ↔
        ¬ (s.pixel r c = true ↔ SpriteBitOn s (s.getV x) (s.getV y) n r c)) ∧
      ((∃ (r : Fin 32) (c : Fin 64), s.pixel r c = true ∧ SpriteBitOn s (s.getV x) (s.getV y) n r c) →
        t.getV 0xF#4 = 1) ∧
      ((¬ ∃ (r : Fin 32) (c : Fin 64), s.pixel r c = true ∧ SpriteBitOn s (s.getV x) (s.getV y) n r c) →
        t.getV 0xF#4 = 0) ∧
      SameRegsBut 0xF#4 s t ∧ t.pc = s.pc + 2 ∧ SameIndexTimer s t ∧ SameMem s t ∧ SameStack s t ∧
      SameRecord s t ∧ SameInputs s t) ∧
  ∀ (w : Word) (x y : Reg) (n : Nat) (s : State), decodeWord w = some (.drw x y n) → 1 ≤ n →
    4095 < s.i.toNat + n - 1 → s.i.toNat ≤ 0xFFF →
    Completes (exec (.drw x y n) s) (TookFatal 1 0x1000 w s)

/-- `DRW` with no rows reads no memory, whatever `I` is, changes no pixel and clears VF (43_draw.md R137; the
spec's decision D7). -/
def Obligations.DrawOfNoRowsOnlyClearsFlag : Prop :=
  ∀ (x y : Reg) (s : State), Completes (exec (.drw x y 0) s) fun t =>
    t.getV 0xF#4 = 0 ∧ SameRegsBut 0xF#4 s t ∧ t.pc = s.pc + 2 ∧ SameIndexTimer s t ∧ SameOutside s t

/-- Drawing the same sprite twice at the same place restores every pixel, and the second VF is 1 exactly when
the first draw set a pixel (43_draw.md R136, the source's property; which pixels a sprite bit falls on rests on the
spec's decision D8, entry 6). -/
def Obligations.DrawingTwiceRestoresTheScreen : Prop :=
  ∀ (x y : Reg) (n : Nat) (s : State), x ≠ 0xF#4 → y ≠ 0xF#4 → n < 16 → n = 0 ∨ s.i.toNat + n - 1 ≤ 4095 →
    Completes (exec (.drw x y n) s) fun t => Completes (exec (.drw x y n) t) fun u =>
      SameScreen s u ∧
      (u.getV 0xF#4 = 1 ↔
        ∃ (r : Fin 32) (c : Fin 64), s.pixel r c = false ∧ SpriteBitOn s (s.getV x) (s.getV y) n r c)

/-! ### Keys and timer -/

/-- `SKP Vx` (44_keys_timer.md R140): bit `k` of the answers latched for the Step is `KeyDown(k)`, any
boolean at all (entry 1); a key code above 15 is the fatal `KeyCodeRange` (the spec's decision D11). -/
def Obligations.SkpRule : Prop :=
  (∀ w : Word, Selects 0xE09E 0xF0FF w → decodeWord w = some (.skp (w.extractLsb' 8 4))) ∧
  (∀ (x : Reg) (s : State), (s.getV x).toNat ≤ 15 → Completes (exec (.skp x) s) fun t =>
    t.pc = (if s.keys.getLsbD (s.getV x).toNat then s.pc + 4 else s.pc + 2) ∧
    SameRegs s t ∧ SameIndexTimer s t ∧ SameOutside s t) ∧
  ∀ (w : Word) (x : Reg) (s : State), decodeWord w = some (.skp x) → 15 < (s.getV x).toNat →
    Completes (exec (.skp x) s) (TookFatal 5 s.pc w s)

/-- `SKNP Vx` (44_keys_timer.md R141), its answer as in `SkpRule`; with `SKP` of the same register in the same
state exactly one skips. -/
def Obligations.SknpRule : Prop :=
  (∀ w : Word, Selects 0xE0A1 0xF0FF w → decodeWord w = some (.sknp (w.extractLsb' 8 4))) ∧
  (∀ (x : Reg) (s : State), (s.getV x).toNat ≤ 15 → Completes (exec (.sknp x) s) fun t =>
    t.pc = (if s.keys.getLsbD (s.getV x).toNat then s.pc + 2 else s.pc + 4) ∧
    SameRegs s t ∧ SameIndexTimer s t ∧ SameOutside s t ∧
    Completes (exec (.skp x) s) fun u => (t.pc = s.pc + 4 ↔ ¬ u.pc = s.pc + 4)) ∧
  ∀ (w : Word) (x : Reg) (s : State), decodeWord w = some (.sknp x) → 15 < (s.getV x).toNat →
    Completes (exec (.sknp x) s) (TookFatal 5 s.pc w s)

/-- `LD Vx, DT` (44_keys_timer.md R142). -/
def Obligations.LdFromTimerRule : Prop :=
  (∀ w : Word, Selects 0xF007 0xF0FF w → decodeWord w = some (.ldVxDt (w.extractLsb' 8 4))) ∧
  ∀ (x : Reg) (s : State), Completes (exec (.ldVxDt x) s) fun t =>
    t.getV x = s.dt ∧ SameRegsBut x s t ∧ t.pc = s.pc + 2 ∧ SameIndexTimer s t ∧ SameOutside s t

/-- `LD DT, Vx` (44_keys_timer.md R143). -/
def Obligations.LdToTimerRule : Prop :=
  (∀ w : Word, Selects 0xF015 0xF0FF w → decodeWord w = some (.ldDtVx (w.extractLsb' 8 4))) ∧
  ∀ (x : Reg) (s : State), Completes (exec (.ldDtVx x) s) fun t =>
    t.dt = s.getV x ∧ t.i = s.i ∧ SameRegs s t ∧ t.pc = s.pc + 2 ∧ SameOutside s t

/-- The Tick operation (60_exceptions.md R160): it lowers a non-zero `DT` of a running machine by one and
changes nothing but `DT`. -/
def Obligations.TickRule : Prop :=
  ∀ (f : Font) (s : State), Completes (applyOp f .tick s) fun t =>
    (s.halt = false → s.dt ≠ 0 → t.dt.toNat + 1 = s.dt.toNat) ∧
    (s.halt = true ∨ s.dt = 0 → t.dt = s.dt) ∧
    t.pc = s.pc ∧ t.i = s.i ∧ SameRegs s t ∧ SameOutside s t

/-- From `DT = v`, `n` Ticks leave `v - n`, and 0 once `n` reaches `v`: it never wraps
(60_exceptions.md R161). -/
def Obligations.TimerRunsDownToZeroAndStays : Prop :=
  ∀ (f : Font) (s : State) (n : Nat), s.halt = false →
    Completes (applyOps f (List.replicate n .tick) s) fun t =>
    t.dt.toNat = s.dt.toNat - n ∧ (t.dt = 0 ↔ s.dt.toNat ≤ n) ∧
    t.pc = s.pc ∧ t.i = s.i ∧ SameRegs s t ∧ SameOutside s t

/-! ### The whole machine -/

/-- Each piece of state has its writers: no other instruction changes it (00_scope.md R19, by the spec's decision
D29, entry 27; 10_state.md R24, R26, R30, R35, R36). -/
def Obligations.EachPieceOfStateHasItsWriters : Prop :=
  ∀ (ins : Instr) (s t : State), exec ins s = .next t →
    ((∀ x y n, ins ≠ .drw x y n) → SameScreen s t) ∧
    ((∀ nnn, ins ≠ .ldI nnn) → (∀ x, ins ≠ .ldF x) → t.i = s.i) ∧
    ((∀ x, ins ≠ .ldDtVx x) → t.dt = s.dt) ∧
    (ins ≠ .ret → (∀ nnn, ins ≠ .call nnn) → SameStack s t) ∧
    ((∀ x, ins ≠ .ldB x) → SameMem s t) ∧
    SameInputs s t

/-- No instruction writes a general register that the table of 10_state.md R23 does not give it. That the table is
complete rests on the spec's decision D29, the Effect column read as complete (entry 27). -/
def Obligations.RegistersWrittenAreTheTables : Prop :=
  ∀ (ins : Instr) (s t : State) (z : Reg), exec ins s = .next t → writesReg ins z = false →
    t.getV z = s.getV z

/-- Only `RND`, `SKP` and `SKNP` reach outside the core for an answer: every other instruction does the same
whatever the adapter and the random source would answer (60_exceptions.md R159). -/
def Obligations.OnlyThreeInstructionsAskTheOutside : Prop :=
  ∀ (ins : Instr) (keys keys' : BitVec 16) (rnd rnd' : Byte) (s t : State),
    (∀ x kk, ins ≠ .rnd x kk) → (∀ x, ins ≠ .skp x) → (∀ x, ins ≠ .sknp x) →
    exec ins (s.latch keys rnd) = .next t → exec ins (s.latch keys' rnd') = .next (t.latch keys' rnd')

/-- A settled machine stays as it is: a Step changes nothing but the latched inputs, a Tick can only lower
`DT`, and both leave it settled (70_reset_and_hazards.md R191). -/
def Obligations.SettledMachineStaysSettled : Prop :=
  ∀ (keys : BitVec 16) (rnd : Byte) (s : State), Settled s →
    stepWith keys rnd s = .next (s.latch keys rnd) ∧ Settled (s.latch keys rnd) ∧ Settled s.tick ∧
    s.tick.dt.toNat ≤ s.dt.toNat ∧ s.tick.present = s.present

/-! ### Reset, Load, Present -/

/-- The Reset operation, in any state and for every value of the parameter `FONT` (10_state.md R37, R42;
70_reset_and_hazards.md R180): the spec's state is at its reset values, and Load is accepted again
(60_exceptions.md R170). For the default font that state is `State.reset`. The slots' and the record's zeros are the
spec's decision D21 (entry 10), the default font's values are presumed (entry 5), and `started` and `draws` are
the model's own (entry 4). -/
def Obligations.ResetRule : Prop :=
  State.resetWith defaultFont = State.reset ∧
  ∀ (f : Font) (s : State), Completes (applyOp f .reset s) fun t =>
    (∀ x : Reg, t.getV x = 0) ∧ t.i = 0 ∧ t.dt = 0 ∧ t.pc = 0x200 ∧ t.sp = 0 ∧
    (∀ k : Fin 16, t.stack[k.val]'k.isLt = 0) ∧ (∀ (r : Fin 32) (c : Fin 64), t.pixel r c = false) ∧
    (∀ j : Fin 80, t.memByte (0x050 + j.val) = f[j.val]'j.isLt) ∧
    (∀ a : Nat, a < 0x050 ∨ 0x09F < a → t.memByte a = 0) ∧
    t.halt = false ∧ t.fcause = 0 ∧ t.faddr = 0 ∧ t.fword = 0 ∧ t.started = false ∧ t.draws = s.draws ∧
    ∀ bytes : List Byte, bytes.length ≤ 0xE00 → Completes (applyOp f (.load bytes) t) fun u =>
      ∀ j : Nat, j < bytes.length → u.memByte (0x200 + j) = bytes.getD j 0

/-- The Load operation (60_exceptions.md R170; the spec's decision D20): in its window the bytes are copied
verbatim from 0x200 on and nothing else changes; outside it nothing changes. -/
def Obligations.LoadRule : Prop :=
  ∀ (f : Font) (bytes : List Byte) (s : State),
    (s.started = false → s.halt = false → bytes.length ≤ 0xE00 →
      Completes (applyOp f (.load bytes) s) fun t =>
        (∀ j : Nat, j < bytes.length → t.memByte (0x200 + j) = bytes.getD j 0) ∧
        (∀ a : Nat, a < 0x200 ∨ 0x200 + bytes.length ≤ a → t.memByte a = s.memByte a) ∧
        t.pc = s.pc ∧ SameRegs s t ∧ SameIndexTimer s t ∧ SameScreen s t ∧ SameStack s t ∧ SameRecord s t ∧
        SameInputs s t) ∧
    (s.started = true ∨ s.halt = true ∨ 0xE00 < bytes.length → applyOp f (.load bytes) s = .next s)

/-- With nothing loaded, the first step after Reset halts with `UnimplementedOpcode` at 0x200, whatever the
outside world does and whatever `FONT` is (70_reset_and_hazards.md R182). -/
def Obligations.UnloadedMachineHaltsAtOnce : Prop :=
  ∀ f : Font, Completes (step (State.resetWith f)) fun t =>
    t.halt = true ∧ t.fcause = 2 ∧ t.faddr = 0x200 ∧ t.fword = 0x0000 ∧ t.pc = 0x200

/-- Present answers 2048 booleans, row-major, and changes nothing (60_exceptions.md R168; booleans and no grey levels
are the spec's decision D9). -/
def Obligations.PresentIsRowMajor : Prop :=
  ∀ s : State, s.present.length = 2048 ∧
    (∀ (r : Fin 32) (c : Fin 64), s.present[64 * r.val + c.val]? = some (s.pixel r c)) ∧
    (∀ f : Font, applyOp f .present s = .next s)

/-! ### Invariants and progress -/

/-- The invariant holds after Reset, for every value of the parameter `FONT`. -/
def Obligations.InvariantHoldsAtReset : Prop := Inv State.reset ∧ ∀ f : Font, Inv (State.resetWith f)

/-- Every step keeps the invariant (10_state.md R43; the last two clauses of `Inv` are about the model's own form,
entries 4 and 24). -/
def Obligations.StepKeepsInvariant : Prop := ∀ s t : State, Inv s → step s = .next t → Inv t

/-- Every sequence of the five operations keeps the invariant, whatever inputs it gives (10_state.md R43). -/
def Obligations.OperationsKeepInvariant : Prop :=
  ∀ (f : Font) (ops : List Op) (s t : State), Inv s → applyOps f ops s = .next t → Inv t

/-- From a state with the invariant no step and no sequence of operations stops: every instruction, every
unimplemented word and every fatal condition has its next state (60_exceptions.md R150 to R155). -/
def Obligations.NothingStopsTheMachine : Prop :=
  ∀ s : State, Inv s → NoStop (step s) ∧ ∀ (f : Font) (ops : List Op), NoStop (applyOps f ops s)
end

