-- ==== Sys2Proof/Laws/Decode.lean ====
section
/-! SUPPORT. The fields of a word put together from fields (30_encoding.md R71, R72), and a word from its
bytes. -/

namespace Sys2Proof

/-! ### Fields as numbers -/

theorem toNat_fieldOp (w : Word) : (fieldOp w).toNat = w.toNat / 4096 := by
  have := w.isLt
  simp only [fieldOp, BitVec.extractLsb'_toNat, Nat.shiftRight_eq_div_pow]
  omega

theorem toNat_fieldX (w : Word) : (fieldX w).toNat = w.toNat / 256 % 16 := by
  simp [fieldX, Nat.shiftRight_eq_div_pow]

theorem toNat_fieldY (w : Word) : (fieldY w).toNat = w.toNat / 16 % 16 := by
  simp [fieldY, Nat.shiftRight_eq_div_pow]

theorem toNat_fieldN (w : Word) : (fieldN w).toNat = w.toNat % 16 := by
  simp [fieldN]

theorem toNat_fieldKK (w : Word) : (fieldKK w).toNat = w.toNat % 256 := by
  simp [fieldKK]

theorem toNat_fieldNNN (w : Word) : (fieldNNN w).toNat = w.toNat % 4096 := by
  simp only [fieldNNN, BitVec.toNat_setWidth, BitVec.extractLsb'_toNat, Nat.shiftRight_zero]
  omega

/-! ### Words put together, as numbers -/

theorem toNat_formatA (op : BitVec 4) (nnn : Word) :
    (formatA op nnn).toNat = 4096 * op.toNat + nnn.toNat % 4096 := by
  have h : (nnn.setWidth 12).toNat = nnn.toNat % 4096 := by simp
  have := Nat.mod_lt nnn.toNat (show 4096 > 0 by omega)
  show (op ++ nnn.setWidth 12).toNat = _
  rw [BitVec.toNat_append, ← Nat.shiftLeft_add_eq_or_of_lt (by omega), Nat.shiftLeft_eq, h]
  omega

theorem toNat_formatXK (op : BitVec 4) (x : Reg) (kk : Byte) :
    (formatXK op x kk).toNat = 4096 * op.toNat + 256 * x.toNat + kk.toNat := by
  have hx := x.isLt
  have hk := kk.isLt
  show ((op ++ x) ++ kk).toNat = _
  rw [BitVec.toNat_append, ← Nat.shiftLeft_add_eq_or_of_lt (by omega), BitVec.toNat_append,
    ← Nat.shiftLeft_add_eq_or_of_lt (by omega), Nat.shiftLeft_eq, Nat.shiftLeft_eq]
  omega

theorem toNat_formatXYN (op : BitVec 4) (x y : Reg) (n : BitVec 4) :
    (formatXYN op x y n).toNat = 4096 * op.toNat + 256 * x.toNat + 16 * y.toNat + n.toNat := by
  have hx := x.isLt
  have hy := y.isLt
  have hn := n.isLt
  show (((op ++ x) ++ y) ++ n).toNat = _
  rw [BitVec.toNat_append, ← Nat.shiftLeft_add_eq_or_of_lt (by omega), BitVec.toNat_append,
    ← Nat.shiftLeft_add_eq_or_of_lt (by omega), BitVec.toNat_append,
    ← Nat.shiftLeft_add_eq_or_of_lt (by omega), Nat.shiftLeft_eq, Nat.shiftLeft_eq, Nat.shiftLeft_eq]
  omega

theorem toNat_wordOfBytes (b0 b1 : Byte) : (wordOfBytes b0 b1).toNat = 256 * b0.toNat + b1.toNat := by
  have h1 := b1.isLt
  show (b0 ++ b1).toNat = _
  rw [BitVec.toNat_append, ← Nat.shiftLeft_add_eq_or_of_lt (by omega), Nat.shiftLeft_eq]
  omega

theorem toNat_byte0 (w : Word) : (byte0 w).toNat = w.toNat / 256 := by
  have := w.isLt
  simp only [byte0, BitVec.extractLsb'_toNat, Nat.shiftRight_eq_div_pow]
  omega

theorem toNat_byte1 (w : Word) : (byte1 w).toNat = w.toNat % 256 := by
  simp [byte1]

/-- A word laid out as two bytes and read back is the word. -/
@[simp] theorem wordOfBytes_byte0_byte1 (w : Word) : wordOfBytes (byte0 w) (byte1 w) = w := by
  apply BitVec.eq_of_toNat_eq
  rw [toNat_wordOfBytes, toNat_byte0, toNat_byte1]
  omega

/-! ### Fields of a word put together -/

@[simp] theorem fieldOp_formatA (op : BitVec 4) (nnn : Word) : fieldOp (formatA op nnn) = op := by
  apply BitVec.eq_of_toNat_eq
  rw [toNat_fieldOp, toNat_formatA]
  omega

theorem fieldNNN_formatA (op : BitVec 4) {nnn : Word} (h : nnn.toNat < 0x1000) :
    fieldNNN (formatA op nnn) = nnn := by
  apply BitVec.eq_of_toNat_eq
  rw [toNat_fieldNNN, toNat_formatA]
  omega

@[simp] theorem fieldOp_formatXK (op : BitVec 4) (x : Reg) (kk : Byte) : fieldOp (formatXK op x kk) = op := by
  have := x.isLt
  have := kk.isLt
  apply BitVec.eq_of_toNat_eq
  rw [toNat_fieldOp, toNat_formatXK]
  omega

@[simp] theorem fieldX_formatXK (op : BitVec 4) (x : Reg) (kk : Byte) : fieldX (formatXK op x kk) = x := by
  have := x.isLt
  have := kk.isLt
  apply BitVec.eq_of_toNat_eq
  rw [toNat_fieldX, toNat_formatXK]
  omega

@[simp] theorem fieldKK_formatXK (op : BitVec 4) (x : Reg) (kk : Byte) : fieldKK (formatXK op x kk) = kk := by
  have := kk.isLt
  apply BitVec.eq_of_toNat_eq
  rw [toNat_fieldKK, toNat_formatXK]
  omega

@[simp] theorem fieldOp_formatXYN (op : BitVec 4) (x y : Reg) (n : BitVec 4) :
    fieldOp (formatXYN op x y n) = op := by
  have := x.isLt
  have := y.isLt
  have := n.isLt
  apply BitVec.eq_of_toNat_eq
  rw [toNat_fieldOp, toNat_formatXYN]
  omega

@[simp] theorem fieldX_formatXYN (op : BitVec 4) (x y : Reg) (n : BitVec 4) :
    fieldX (formatXYN op x y n) = x := by
  have := x.isLt
  have := y.isLt
  have := n.isLt
  apply BitVec.eq_of_toNat_eq
  rw [toNat_fieldX, toNat_formatXYN]
  omega

@[simp] theorem fieldY_formatXYN (op : BitVec 4) (x y : Reg) (n : BitVec 4) :
    fieldY (formatXYN op x y n) = y := by
  have := y.isLt
  have := n.isLt
  apply BitVec.eq_of_toNat_eq
  rw [toNat_fieldY, toNat_formatXYN]
  omega

@[simp] theorem fieldN_formatXYN (op : BitVec 4) (x y : Reg) (n : BitVec 4) :
    fieldN (formatXYN op x y n) = n := by
  have := n.isLt
  apply BitVec.eq_of_toNat_eq
  rw [toNat_fieldN, toNat_formatXYN]
  omega

end Sys2Proof
end

