-- ==== Sys2Proof/Laws/State.lean ====
section
/-! SUPPORT. One lemma per field per update of the state, each true by unfolding the update once. -/

namespace Sys2Proof.Machine

variable (s : State)

/-! ### `State.setV` -/

@[simp] theorem State.setV_v (x : Reg) (b : Byte) : (s.setV x b).v = s.v.set x.toNat b x.isLt := rfl
@[simp] theorem State.setV_i (x : Reg) (b : Byte) : (s.setV x b).i = s.i := rfl
@[simp] theorem State.setV_dt (x : Reg) (b : Byte) : (s.setV x b).dt = s.dt := rfl
@[simp] theorem State.setV_pc (x : Reg) (b : Byte) : (s.setV x b).pc = s.pc := rfl
@[simp] theorem State.setV_stack (x : Reg) (b : Byte) : (s.setV x b).stack = s.stack := rfl
@[simp] theorem State.setV_sp (x : Reg) (b : Byte) : (s.setV x b).sp = s.sp := rfl
@[simp] theorem State.setV_fb (x : Reg) (b : Byte) : (s.setV x b).fb = s.fb := rfl
@[simp] theorem State.setV_mem (x : Reg) (b : Byte) : (s.setV x b).mem = s.mem := rfl
@[simp] theorem State.setV_halt (x : Reg) (b : Byte) : (s.setV x b).halt = s.halt := rfl
@[simp] theorem State.setV_fcause (x : Reg) (b : Byte) : (s.setV x b).fcause = s.fcause := rfl
@[simp] theorem State.setV_faddr (x : Reg) (b : Byte) : (s.setV x b).faddr = s.faddr := rfl
@[simp] theorem State.setV_fword (x : Reg) (b : Byte) : (s.setV x b).fword = s.fword := rfl
@[simp] theorem State.setV_started (x : Reg) (b : Byte) : (s.setV x b).started = s.started := rfl
@[simp] theorem State.setV_keys (x : Reg) (b : Byte) : (s.setV x b).keys = s.keys := rfl
@[simp] theorem State.setV_rnd (x : Reg) (b : Byte) : (s.setV x b).rnd = s.rnd := rfl
@[simp] theorem State.setV_draws (x : Reg) (b : Byte) : (s.setV x b).draws = s.draws := rfl

/-! ### `State.setMem` -/

@[simp] theorem State.setMem_v (a : Nat) (b : Byte) : (s.setMem a b).v = s.v := rfl
@[simp] theorem State.setMem_i (a : Nat) (b : Byte) : (s.setMem a b).i = s.i := rfl
@[simp] theorem State.setMem_dt (a : Nat) (b : Byte) : (s.setMem a b).dt = s.dt := rfl
@[simp] theorem State.setMem_pc (a : Nat) (b : Byte) : (s.setMem a b).pc = s.pc := rfl
@[simp] theorem State.setMem_stack (a : Nat) (b : Byte) : (s.setMem a b).stack = s.stack := rfl
@[simp] theorem State.setMem_sp (a : Nat) (b : Byte) : (s.setMem a b).sp = s.sp := rfl
@[simp] theorem State.setMem_fb (a : Nat) (b : Byte) : (s.setMem a b).fb = s.fb := rfl
@[simp] theorem State.setMem_mem (a : Nat) (b : Byte) : (s.setMem a b).mem = Memory.write a b s.mem := rfl
@[simp] theorem State.setMem_halt (a : Nat) (b : Byte) : (s.setMem a b).halt = s.halt := rfl
@[simp] theorem State.setMem_fcause (a : Nat) (b : Byte) : (s.setMem a b).fcause = s.fcause := rfl
@[simp] theorem State.setMem_faddr (a : Nat) (b : Byte) : (s.setMem a b).faddr = s.faddr := rfl
@[simp] theorem State.setMem_fword (a : Nat) (b : Byte) : (s.setMem a b).fword = s.fword := rfl
@[simp] theorem State.setMem_started (a : Nat) (b : Byte) : (s.setMem a b).started = s.started := rfl
@[simp] theorem State.setMem_keys (a : Nat) (b : Byte) : (s.setMem a b).keys = s.keys := rfl
@[simp] theorem State.setMem_rnd (a : Nat) (b : Byte) : (s.setMem a b).rnd = s.rnd := rfl
@[simp] theorem State.setMem_draws (a : Nat) (b : Byte) : (s.setMem a b).draws = s.draws := rfl

/-! ### `State.setI` -/

@[simp] theorem State.setI_v (a : Word) : (s.setI a).v = s.v := rfl
@[simp] theorem State.setI_i (a : Word) : (s.setI a).i = a := rfl
@[simp] theorem State.setI_dt (a : Word) : (s.setI a).dt = s.dt := rfl
@[simp] theorem State.setI_pc (a : Word) : (s.setI a).pc = s.pc := rfl
@[simp] theorem State.setI_stack (a : Word) : (s.setI a).stack = s.stack := rfl
@[simp] theorem State.setI_sp (a : Word) : (s.setI a).sp = s.sp := rfl
@[simp] theorem State.setI_fb (a : Word) : (s.setI a).fb = s.fb := rfl
@[simp] theorem State.setI_mem (a : Word) : (s.setI a).mem = s.mem := rfl
@[simp] theorem State.setI_halt (a : Word) : (s.setI a).halt = s.halt := rfl
@[simp] theorem State.setI_fcause (a : Word) : (s.setI a).fcause = s.fcause := rfl
@[simp] theorem State.setI_faddr (a : Word) : (s.setI a).faddr = s.faddr := rfl
@[simp] theorem State.setI_fword (a : Word) : (s.setI a).fword = s.fword := rfl
@[simp] theorem State.setI_started (a : Word) : (s.setI a).started = s.started := rfl
@[simp] theorem State.setI_keys (a : Word) : (s.setI a).keys = s.keys := rfl
@[simp] theorem State.setI_rnd (a : Word) : (s.setI a).rnd = s.rnd := rfl
@[simp] theorem State.setI_draws (a : Word) : (s.setI a).draws = s.draws := rfl

/-! ### `State.advance` -/

@[simp] theorem State.advance_v : (s.advance).v = s.v := rfl
@[simp] theorem State.advance_i : (s.advance).i = s.i := rfl
@[simp] theorem State.advance_dt : (s.advance).dt = s.dt := rfl
@[simp] theorem State.advance_pc : (s.advance).pc = s.pc + 2 := rfl
@[simp] theorem State.advance_stack : (s.advance).stack = s.stack := rfl
@[simp] theorem State.advance_sp : (s.advance).sp = s.sp := rfl
@[simp] theorem State.advance_fb : (s.advance).fb = s.fb := rfl
@[simp] theorem State.advance_mem : (s.advance).mem = s.mem := rfl
@[simp] theorem State.advance_halt : (s.advance).halt = s.halt := rfl
@[simp] theorem State.advance_fcause : (s.advance).fcause = s.fcause := rfl
@[simp] theorem State.advance_faddr : (s.advance).faddr = s.faddr := rfl
@[simp] theorem State.advance_fword : (s.advance).fword = s.fword := rfl
@[simp] theorem State.advance_started : (s.advance).started = s.started := rfl
@[simp] theorem State.advance_keys : (s.advance).keys = s.keys := rfl
@[simp] theorem State.advance_rnd : (s.advance).rnd = s.rnd := rfl
@[simp] theorem State.advance_draws : (s.advance).draws = s.draws := rfl

/-! ### `State.skipIf` -/

@[simp] theorem State.skipIf_v (p : Bool) : (s.skipIf p).v = s.v := rfl
@[simp] theorem State.skipIf_i (p : Bool) : (s.skipIf p).i = s.i := rfl
@[simp] theorem State.skipIf_dt (p : Bool) : (s.skipIf p).dt = s.dt := rfl
@[simp] theorem State.skipIf_pc (p : Bool) : (s.skipIf p).pc = s.pc + if p then 4 else 2 := rfl
@[simp] theorem State.skipIf_stack (p : Bool) : (s.skipIf p).stack = s.stack := rfl
@[simp] theorem State.skipIf_sp (p : Bool) : (s.skipIf p).sp = s.sp := rfl
@[simp] theorem State.skipIf_fb (p : Bool) : (s.skipIf p).fb = s.fb := rfl
@[simp] theorem State.skipIf_mem (p : Bool) : (s.skipIf p).mem = s.mem := rfl
@[simp] theorem State.skipIf_halt (p : Bool) : (s.skipIf p).halt = s.halt := rfl
@[simp] theorem State.skipIf_fcause (p : Bool) : (s.skipIf p).fcause = s.fcause := rfl
@[simp] theorem State.skipIf_faddr (p : Bool) : (s.skipIf p).faddr = s.faddr := rfl
@[simp] theorem State.skipIf_fword (p : Bool) : (s.skipIf p).fword = s.fword := rfl
@[simp] theorem State.skipIf_started (p : Bool) : (s.skipIf p).started = s.started := rfl
@[simp] theorem State.skipIf_keys (p : Bool) : (s.skipIf p).keys = s.keys := rfl
@[simp] theorem State.skipIf_rnd (p : Bool) : (s.skipIf p).rnd = s.rnd := rfl
@[simp] theorem State.skipIf_draws (p : Bool) : (s.skipIf p).draws = s.draws := rfl

/-! ### `State.jump` -/

@[simp] theorem State.jump_v (a : Word) : (s.jump a).v = s.v := rfl
@[simp] theorem State.jump_i (a : Word) : (s.jump a).i = s.i := rfl
@[simp] theorem State.jump_dt (a : Word) : (s.jump a).dt = s.dt := rfl
@[simp] theorem State.jump_pc (a : Word) : (s.jump a).pc = a := rfl
@[simp] theorem State.jump_stack (a : Word) : (s.jump a).stack = s.stack := rfl
@[simp] theorem State.jump_sp (a : Word) : (s.jump a).sp = s.sp := rfl
@[simp] theorem State.jump_fb (a : Word) : (s.jump a).fb = s.fb := rfl
@[simp] theorem State.jump_mem (a : Word) : (s.jump a).mem = s.mem := rfl
@[simp] theorem State.jump_halt (a : Word) : (s.jump a).halt = s.halt := rfl
@[simp] theorem State.jump_fcause (a : Word) : (s.jump a).fcause = s.fcause := rfl
@[simp] theorem State.jump_faddr (a : Word) : (s.jump a).faddr = s.faddr := rfl
@[simp] theorem State.jump_fword (a : Word) : (s.jump a).fword = s.fword := rfl
@[simp] theorem State.jump_started (a : Word) : (s.jump a).started = s.started := rfl
@[simp] theorem State.jump_keys (a : Word) : (s.jump a).keys = s.keys := rfl
@[simp] theorem State.jump_rnd (a : Word) : (s.jump a).rnd = s.rnd := rfl
@[simp] theorem State.jump_draws (a : Word) : (s.jump a).draws = s.draws := rfl

/-! ### `State.raise` -/

@[simp] theorem State.raise_v (c : Cause) (a w : Word) : (s.raise c a w).v = s.v := rfl
@[simp] theorem State.raise_i (c : Cause) (a w : Word) : (s.raise c a w).i = s.i := rfl
@[simp] theorem State.raise_dt (c : Cause) (a w : Word) : (s.raise c a w).dt = s.dt := rfl
@[simp] theorem State.raise_pc (c : Cause) (a w : Word) : (s.raise c a w).pc = s.pc := rfl
@[simp] theorem State.raise_stack (c : Cause) (a w : Word) : (s.raise c a w).stack = s.stack := rfl
@[simp] theorem State.raise_sp (c : Cause) (a w : Word) : (s.raise c a w).sp = s.sp := rfl
@[simp] theorem State.raise_fb (c : Cause) (a w : Word) : (s.raise c a w).fb = s.fb := rfl
@[simp] theorem State.raise_mem (c : Cause) (a w : Word) : (s.raise c a w).mem = s.mem := rfl
@[simp] theorem State.raise_halt (c : Cause) (a w : Word) : (s.raise c a w).halt = true := rfl
@[simp] theorem State.raise_fcause (c : Cause) (a w : Word) : (s.raise c a w).fcause = c.code := rfl
@[simp] theorem State.raise_faddr (c : Cause) (a w : Word) : (s.raise c a w).faddr = a := rfl
@[simp] theorem State.raise_fword (c : Cause) (a w : Word) : (s.raise c a w).fword = w := rfl
@[simp] theorem State.raise_started (c : Cause) (a w : Word) : (s.raise c a w).started = s.started := rfl
@[simp] theorem State.raise_keys (c : Cause) (a w : Word) : (s.raise c a w).keys = s.keys := rfl
@[simp] theorem State.raise_rnd (c : Cause) (a w : Word) : (s.raise c a w).rnd = s.rnd := rfl
@[simp] theorem State.raise_draws (c : Cause) (a w : Word) : (s.raise c a w).draws = s.draws := rfl

/-! ### `State.latch` -/

@[simp] theorem State.latch_v (k : BitVec 16) (r : Byte) : (s.latch k r).v = s.v := rfl
@[simp] theorem State.latch_i (k : BitVec 16) (r : Byte) : (s.latch k r).i = s.i := rfl
@[simp] theorem State.latch_dt (k : BitVec 16) (r : Byte) : (s.latch k r).dt = s.dt := rfl
@[simp] theorem State.latch_pc (k : BitVec 16) (r : Byte) : (s.latch k r).pc = s.pc := rfl
@[simp] theorem State.latch_stack (k : BitVec 16) (r : Byte) : (s.latch k r).stack = s.stack := rfl
@[simp] theorem State.latch_sp (k : BitVec 16) (r : Byte) : (s.latch k r).sp = s.sp := rfl
@[simp] theorem State.latch_fb (k : BitVec 16) (r : Byte) : (s.latch k r).fb = s.fb := rfl
@[simp] theorem State.latch_mem (k : BitVec 16) (r : Byte) : (s.latch k r).mem = s.mem := rfl
@[simp] theorem State.latch_halt (k : BitVec 16) (r : Byte) : (s.latch k r).halt = s.halt := rfl
@[simp] theorem State.latch_fcause (k : BitVec 16) (r : Byte) : (s.latch k r).fcause = s.fcause := rfl
@[simp] theorem State.latch_faddr (k : BitVec 16) (r : Byte) : (s.latch k r).faddr = s.faddr := rfl
@[simp] theorem State.latch_fword (k : BitVec 16) (r : Byte) : (s.latch k r).fword = s.fword := rfl
@[simp] theorem State.latch_started (k : BitVec 16) (r : Byte) : (s.latch k r).started = true := rfl
@[simp] theorem State.latch_keys (k : BitVec 16) (r : Byte) : (s.latch k r).keys = k := rfl
@[simp] theorem State.latch_rnd (k : BitVec 16) (r : Byte) : (s.latch k r).rnd = r := rfl
@[simp] theorem State.latch_draws (k : BitVec 16) (r : Byte) : (s.latch k r).draws = s.draws := rfl

/-! ### `State.ticks` -/

@[simp] theorem State.ticks_v (n : Nat) : (s.ticks n).v = s.v := rfl
@[simp] theorem State.ticks_i (n : Nat) : (s.ticks n).i = s.i := rfl
@[simp] theorem State.ticks_dt (n : Nat) : (s.ticks n).dt = dtAfter n s.dt := rfl
@[simp] theorem State.ticks_pc (n : Nat) : (s.ticks n).pc = s.pc := rfl
@[simp] theorem State.ticks_stack (n : Nat) : (s.ticks n).stack = s.stack := rfl
@[simp] theorem State.ticks_sp (n : Nat) : (s.ticks n).sp = s.sp := rfl
@[simp] theorem State.ticks_fb (n : Nat) : (s.ticks n).fb = s.fb := rfl
@[simp] theorem State.ticks_mem (n : Nat) : (s.ticks n).mem = s.mem := rfl
@[simp] theorem State.ticks_halt (n : Nat) : (s.ticks n).halt = s.halt := rfl
@[simp] theorem State.ticks_fcause (n : Nat) : (s.ticks n).fcause = s.fcause := rfl
@[simp] theorem State.ticks_faddr (n : Nat) : (s.ticks n).faddr = s.faddr := rfl
@[simp] theorem State.ticks_fword (n : Nat) : (s.ticks n).fword = s.fword := rfl
@[simp] theorem State.ticks_started (n : Nat) : (s.ticks n).started = s.started := rfl
@[simp] theorem State.ticks_keys (n : Nat) : (s.ticks n).keys = s.keys := rfl
@[simp] theorem State.ticks_rnd (n : Nat) : (s.ticks n).rnd = s.rnd := rfl
@[simp] theorem State.ticks_draws (n : Nat) : (s.ticks n).draws = s.draws := rfl

/-! ### `State.advanceWorld` -/

@[simp] theorem State.advanceWorld_v : s.advanceWorld.v = s.v := rfl
@[simp] theorem State.advanceWorld_i : s.advanceWorld.i = s.i := rfl
@[simp] theorem State.advanceWorld_dt : s.advanceWorld.dt = dtAfter (Config.freeTicks s.draws) s.dt := rfl
@[simp] theorem State.advanceWorld_pc : s.advanceWorld.pc = s.pc := rfl
@[simp] theorem State.advanceWorld_stack : s.advanceWorld.stack = s.stack := rfl
@[simp] theorem State.advanceWorld_sp : s.advanceWorld.sp = s.sp := rfl
@[simp] theorem State.advanceWorld_fb : s.advanceWorld.fb = s.fb := rfl
@[simp] theorem State.advanceWorld_mem : s.advanceWorld.mem = s.mem := rfl
@[simp] theorem State.advanceWorld_halt : s.advanceWorld.halt = s.halt := rfl
@[simp] theorem State.advanceWorld_fcause : s.advanceWorld.fcause = s.fcause := rfl
@[simp] theorem State.advanceWorld_faddr : s.advanceWorld.faddr = s.faddr := rfl
@[simp] theorem State.advanceWorld_fword : s.advanceWorld.fword = s.fword := rfl
@[simp] theorem State.advanceWorld_started : s.advanceWorld.started = true := rfl
@[simp] theorem State.advanceWorld_keys : s.advanceWorld.keys = Config.freeKeys s.draws := rfl
@[simp] theorem State.advanceWorld_rnd : s.advanceWorld.rnd = Config.freeRnd s.draws := rfl
@[simp] theorem State.advanceWorld_draws : s.advanceWorld.draws = s.draws + 1 := rfl

/-! ### `State.tick` -/

@[simp] theorem State.tick_v : s.tick.v = s.v := rfl
@[simp] theorem State.tick_i : s.tick.i = s.i := rfl
@[simp] theorem State.tick_pc : s.tick.pc = s.pc := rfl
@[simp] theorem State.tick_stack : s.tick.stack = s.stack := rfl
@[simp] theorem State.tick_sp : s.tick.sp = s.sp := rfl
@[simp] theorem State.tick_fb : s.tick.fb = s.fb := rfl
@[simp] theorem State.tick_mem : s.tick.mem = s.mem := rfl
@[simp] theorem State.tick_halt : s.tick.halt = s.halt := rfl
@[simp] theorem State.tick_fcause : s.tick.fcause = s.fcause := rfl
@[simp] theorem State.tick_faddr : s.tick.faddr = s.faddr := rfl
@[simp] theorem State.tick_fword : s.tick.fword = s.fword := rfl
@[simp] theorem State.tick_started : s.tick.started = s.started := rfl
@[simp] theorem State.tick_keys : s.tick.keys = s.keys := rfl
@[simp] theorem State.tick_rnd : s.tick.rnd = s.rnd := rfl
@[simp] theorem State.tick_draws : s.tick.draws = s.draws := rfl

end Sys2Proof.Machine
end

