-- ==== Sys2Proof/Laws/Memory.lean ====
section
/-! SUPPORT. The laws of memory: a read after a write, every other place left alone, and the canonical form
kept by every operation. The read laws need no canonical form. -/

namespace Sys2Proof.Machine

/-! ### Reads after writes (20_memory.md R57) -/

theorem Memory.read_erase_same (a : Nat) (m : List Host.Cell) :
    Memory.read a (Memory.erase a m) = resetByte a := by
  induction m with
  | nil => rfl
  | cons c m ih =>
    obtain ⟨a', b'⟩ := c
    by_cases h : a' = a
    · simpa [Memory.erase, h] using ih
    · have h' : ¬ a = a' := fun e => h e.symm
      simpa [Memory.erase, h, h', Memory.read] using ih

theorem Memory.read_erase_ne {a c : Nat} (h : c ≠ a) (m : List Host.Cell) :
    Memory.read c (Memory.erase a m) = Memory.read c m := by
  induction m with
  | nil => rfl
  | cons e m ih =>
    obtain ⟨a', b'⟩ := e
    by_cases h' : a' = a
    · subst h'
      simpa [Memory.erase, Memory.read, h] using ih
    · by_cases h'' : c = a'
      · subst h''; simp [Memory.erase, Memory.read, h']
      · simpa [Memory.erase, Memory.read, h', h''] using ih

theorem Memory.read_insert_same (a : Nat) (b : Byte) (m : List Host.Cell) (h : ∀ e ∈ m, e.1 ≠ a) :
    Memory.read a (Memory.insert a b m) = b := by
  induction m with
  | nil => simp [Memory.insert, Memory.read]
  | cons e m ih =>
    obtain ⟨a', b'⟩ := e
    have hne : a' ≠ a := h (a', b') (by simp)
    have hrest : ∀ e ∈ m, e.1 ≠ a := fun e he => h e (by simp [he])
    by_cases hlt : a < a'
    · simp [Memory.insert, hlt, Memory.read]
    · simp [Memory.insert, hlt, Memory.read, hne.symm, ih hrest]

theorem Memory.read_insert_ne {a c : Nat} (h : c ≠ a) (b : Byte) (m : List Host.Cell) :
    Memory.read c (Memory.insert a b m) = Memory.read c m := by
  induction m with
  | nil => simp [Memory.insert, Memory.read, h]
  | cons e m ih =>
    obtain ⟨a', b'⟩ := e
    by_cases hlt : a < a'
    · simp [Memory.insert, hlt, Memory.read, h]
    · simp [Memory.insert, hlt, Memory.read, ih]

theorem Memory.erase_absent (a : Nat) (m : List Host.Cell) : ∀ e ∈ Memory.erase a m, e.1 ≠ a := by
  intro e he
  simpa using (List.mem_filter.1 he).2

/-- A read of the written address gives the written byte. -/
@[simp] theorem Memory.read_write_same (a : Nat) (b : Byte) (m : List Host.Cell) :
    Memory.read a (Memory.write a b m) = b := by
  unfold Memory.write
  split
  · rename_i h; rw [Memory.read_erase_same, h]
  · exact Memory.read_insert_same a b _ (Memory.erase_absent a m)

/-- A read of any other address gives what it gave before the write. -/
theorem Memory.read_write_ne {a c : Nat} (h : c ≠ a) (b : Byte) (m : List Host.Cell) :
    Memory.read c (Memory.write a b m) = Memory.read c m := by
  unfold Memory.write
  split
  · exact Memory.read_erase_ne h m
  · rw [Memory.read_insert_ne h, Memory.read_erase_ne h]

/-- Both cases of a read after a write. -/
theorem Memory.read_write (a c : Nat) (b : Byte) (m : List Host.Cell) :
    Memory.read c (Memory.write a b m) = if c = a then b else Memory.read c m := by
  split
  · rename_i h; subst h; simp
  · rename_i h; exact Memory.read_write_ne h b m

/-! ### The canonical form is kept -/

theorem Memory.wfFrom_mono {lo lo' : Nat} (h : lo' ≤ lo) (m : List Host.Cell)
    (hm : Memory.wfFrom lo m = true) : Memory.wfFrom lo' m = true := by
  cases m with
  | nil => rfl
  | cons e m =>
    obtain ⟨a, b⟩ := e
    simp only [Memory.wfFrom, Bool.and_eq_true, decide_eq_true_eq] at hm ⊢
    exact ⟨⟨⟨by omega, hm.1.1.2⟩, hm.1.2⟩, hm.2⟩

theorem Memory.wfFrom_erase (a lo : Nat) (m : List Host.Cell) (hm : Memory.wfFrom lo m = true) :
    Memory.wfFrom lo (Memory.erase a m) = true := by
  induction m generalizing lo with
  | nil => rfl
  | cons e m ih =>
    obtain ⟨a', b'⟩ := e
    simp only [Memory.wfFrom, Bool.and_eq_true, decide_eq_true_eq] at hm
    have htail := ih (a' + 1) hm.2
    by_cases h : a' = a
    · have : Memory.erase a ((a', b') :: m) = Memory.erase a m := by simp [Memory.erase, h]
      rw [this]
      exact Memory.wfFrom_mono (by omega) _ htail
    · have : Memory.erase a ((a', b') :: m) = (a', b') :: Memory.erase a m := by simp [Memory.erase, h]
      rw [this]
      simp only [Memory.wfFrom, Bool.and_eq_true, decide_eq_true_eq]
      exact ⟨hm.1, htail⟩

theorem Memory.wfFrom_insert {a lo : Nat} {b : Byte} (m : List Host.Cell) (hlo : lo ≤ a) (ha : a < memSize)
    (hb : b ≠ resetByte a) (habs : ∀ e ∈ m, e.1 ≠ a) (hm : Memory.wfFrom lo m = true) :
    Memory.wfFrom lo (Memory.insert a b m) = true := by
  induction m generalizing lo with
  | nil => simp [Memory.insert, Memory.wfFrom, hlo, ha, hb]
  | cons e m ih =>
    obtain ⟨a', b'⟩ := e
    have hne : a' ≠ a := habs (a', b') (by simp)
    have hrest : ∀ e ∈ m, e.1 ≠ a := fun e he => habs e (by simp [he])
    simp only [Memory.wfFrom, Bool.and_eq_true, decide_eq_true_eq] at hm
    by_cases hlt : a < a'
    · simp only [Memory.insert, hlt, if_true, Memory.wfFrom, Bool.and_eq_true, decide_eq_true_eq]
      exact ⟨⟨⟨hlo, ha⟩, hb⟩, ⟨⟨⟨by omega, hm.1.1.2⟩, hm.1.2⟩, hm.2⟩⟩
    · simp only [Memory.insert, hlt, if_false, Memory.wfFrom, Bool.and_eq_true, decide_eq_true_eq]
      exact ⟨hm.1, ih (by omega) hrest hm.2⟩

/-- A write to an address of the bank keeps the canonical form. -/
theorem Memory.wf_write {a : Nat} (ha : a < memSize) (b : Byte) {m : List Host.Cell}
    (hm : Memory.wf m = true) : Memory.wf (Memory.write a b m) = true := by
  unfold Memory.write
  split
  · exact Memory.wfFrom_erase a 0 m hm
  · rename_i hb
    exact Memory.wfFrom_insert _ (Nat.zero_le a) ha hb (Memory.erase_absent a m)
      (Memory.wfFrom_erase a 0 m hm)

/-- The memory after Reset has the canonical form. -/
theorem Memory.wf_reset : Memory.wf State.reset.mem = true := rfl

/-! ### Canonical memories that read alike are equal -/

/-- Below the first listed address a canonical memory reads as the reset image. -/
theorem Memory.read_below {lo c : Nat} (m : List Host.Cell) (hm : Memory.wfFrom lo m = true) (h : c < lo) :
    Memory.read c m = resetByte c := by
  induction m generalizing lo with
  | nil => rfl
  | cons e m ih =>
    obtain ⟨a, b⟩ := e
    simp only [Memory.wfFrom, Bool.and_eq_true, decide_eq_true_eq] at hm
    have hne : ¬ c = a := by omega
    simp only [Memory.read, hne, if_false]
    exact ih hm.2 (by omega)

/-- Two canonical memories that read alike everywhere are the same list. -/
theorem Memory.ext_of_read {lo : Nat} (m m' : List Host.Cell) (hm : Memory.wfFrom lo m = true)
    (hm' : Memory.wfFrom lo m' = true) (h : ∀ a, Memory.read a m = Memory.read a m') : m = m' := by
  induction m generalizing lo m' with
  | nil =>
    cases m' with
    | nil => rfl
    | cons e m' =>
      obtain ⟨a, b⟩ := e
      simp only [Memory.wfFrom, Bool.and_eq_true, decide_eq_true_eq] at hm'
      have := h a
      simp only [Memory.read, if_true] at this
      exact absurd this.symm hm'.1.2
  | cons e m ih =>
    obtain ⟨a, b⟩ := e
    simp only [Memory.wfFrom, Bool.and_eq_true, decide_eq_true_eq] at hm
    cases m' with
    | nil =>
      have := h a
      simp only [Memory.read, if_true] at this
      exact absurd this hm.1.2
    | cons e' m' =>
      obtain ⟨a', b'⟩ := e'
      simp only [Memory.wfFrom, Bool.and_eq_true, decide_eq_true_eq] at hm'
      have haa : a = a' := by
        rcases Nat.lt_trichotomy a a' with hlt | heq | hgt
        · have h1 := h a
          have hne : ¬ a = a' := by omega
          simp only [Memory.read, if_true, hne, if_false] at h1
          rw [Memory.read_below m' hm'.2 (by omega)] at h1
          exact absurd h1 hm.1.2
        · exact heq
        · have h1 := h a'
          have hne : ¬ a' = a := by omega
          simp only [Memory.read, if_true, hne, if_false] at h1
          rw [Memory.read_below m hm.2 (by omega)] at h1
          exact absurd h1.symm hm'.1.2
      subst haa
      have hb : b = b' := by simpa [Memory.read] using h a
      subst hb
      have hrest : ∀ c, Memory.read c m = Memory.read c m' := by
        intro c
        by_cases hc : c = a
        · subst hc
          rw [Memory.read_below m hm.2 (by omega), Memory.read_below m' hm'.2 (by omega)]
        · simpa [Memory.read, hc] using h c
      rw [ih m' hm.2 hm'.2 hrest]

/-! ### The state's memory accessors -/

@[simp] theorem State.memByte_setMem_same (s : State) (a : Nat) (b : Byte) : (s.setMem a b).memByte a = b :=
  Memory.read_write_same a b s.mem

theorem State.memByte_setMem_ne (s : State) {a c : Nat} (h : c ≠ a) (b : Byte) :
    (s.setMem a b).memByte c = s.memByte c :=
  Memory.read_write_ne h b s.mem

theorem State.memByte_setMem (s : State) (a c : Nat) (b : Byte) :
    (s.setMem a b).memByte c = if c = a then b else s.memByte c :=
  Memory.read_write a c b s.mem

/-- `memByte` looks at the memory field alone. -/
theorem State.memByte_congr {s t : State} (h : t.mem = s.mem) (a : Nat) : t.memByte a = s.memByte a := by
  simp [State.memByte, h]

@[simp] theorem State.memRead_ok (s : State) {a : Nat} (h : a < memSize) : s.memRead a = .ok (s.memByte a) := by
  simp [State.memRead, h]

@[simp] theorem State.memRead_error (s : State) {a : Nat} (h : ¬ a < memSize) : s.memRead a = .error a := by
  simp [State.memRead, h]

end Sys2Proof.Machine
end

