-- ==== Sys2Proof/Laws/Ops.lean ====
section
/-! SUPPORT. What each shared operation over registers, call stack, framebuffer, fetch, timer and inputs can
do, said once. -/

namespace Sys2Proof.Machine

/-! ### General registers -/

theorem State.getV_setV (s : State) (x z : Reg) (b : Byte) :
    (s.setV x b).getV z = if z = x then b else s.getV z := by
  by_cases h : z = x
  · subst h; simp [State.getV]
  · have h' : x.toNat ≠ z.toNat := fun e => h (BitVec.eq_of_toNat_eq e.symm)
    simp [State.getV, h, Vector.getElem_set_ne, h']

@[simp] theorem State.getV_setV_same (s : State) (x : Reg) (b : Byte) : (s.setV x b).getV x = b := by
  simp [State.getV_setV]

theorem State.getV_setV_ne (s : State) {x z : Reg} (h : z ≠ x) (b : Byte) :
    (s.setV x b).getV z = s.getV z := by
  simp [State.getV_setV, h]

/-- `getV` looks at the register file alone. -/
theorem State.getV_congr {s t : State} (h : t.v = s.v) (z : Reg) : t.getV z = s.getV z := by
  simp [State.getV, h]

/-! ### Framebuffer -/

theorem Framebuffer.get_put (fb : Framebuffer) (r r' : Fin 32) (c c' : Fin 64) (b : Bool) :
    Framebuffer.get (Framebuffer.put fb r c b) r' c' =
      if r' = r ∧ c' = c then b else Framebuffer.get fb r' c' := by
  by_cases hr : r' = r
  · subst hr
    by_cases hc : c' = c
    · subst hc; simp [Framebuffer.get, Framebuffer.put]
    · have hc' : ¬ c.val = c'.val := fun e => hc (Fin.ext e.symm)
      simp [Framebuffer.get, Framebuffer.put, hc, hc']
  · have hr' : ¬ r.val = r'.val := fun e => hr (Fin.ext e.symm)
    simp [Framebuffer.get, Framebuffer.put, hr, hr']

/-- Two framebuffers with the same pixels are the same. -/
theorem Framebuffer.ext_of_get {fb fb' : Framebuffer}
    (h : ∀ r c, Framebuffer.get fb r c = Framebuffer.get fb' r c) : fb = fb' := by
  apply Vector.ext
  intro r hr
  apply Vector.ext
  intro c hc
  exact h ⟨r, hr⟩ ⟨c, hc⟩

/-- `pixel` looks at the framebuffer alone. -/
theorem State.pixel_congr {s t : State} (h : t.fb = s.fb) (r : Fin 32) (c : Fin 64) :
    t.pixel r c = s.pixel r c := by
  simp [State.pixel, h]

/-! ### Call stack (10_state.md R32) -/

/-- A push answers a state exactly when a slot is free, and writes the slot `SP`. -/
theorem State.push?_eq_some {s t : State} {a : Word} :
    s.push? a = some t ↔
      ∃ h : s.sp.toNat < 16, t = { s with stack := s.stack.set s.sp.toNat a h, sp := s.sp + 1 } := by
  unfold State.push?
  split
  · rename_i h; simp [h, eq_comm]
  · rename_i h; simp [h]

theorem State.push?_eq_none {s : State} {a : Word} : s.push? a = none ↔ 16 ≤ s.sp.toNat := by
  unfold State.push?
  split <;> simp <;> omega

/-- A pop answers the value in slot `SP - 1` exactly when there is such a slot. -/
theorem State.pop?_eq_some {s t : State} {a : Word} :
    s.pop? = some (a, t) ↔
      ∃ h : 1 ≤ s.sp.toNat ∧ s.sp.toNat ≤ 16,
        a = s.stack[s.sp.toNat - 1]'(by omega) ∧ t = { s with sp := s.sp - 1 } := by
  unfold State.pop?
  split
  · rename_i h; simp [h, eq_comm]
  · rename_i h; simp [h]

theorem State.pop?_eq_none {s : State} : s.pop? = none ↔ s.sp.toNat = 0 ∨ 16 < s.sp.toNat := by
  unfold State.pop?
  split
  · rename_i h; simp; omega
  · rename_i h; simp; omega

/-- Popping what was pushed: the value comes back and only the slot above `SP` differs. -/
theorem State.pop?_of_push? {s t : State} {a : Word} (h : s.push? a = some t) :
    t.pop? = some (a, { t with sp := s.sp }) := by
  obtain ⟨hlt, rfl⟩ := State.push?_eq_some.1 h
  have hsp : (s.sp + 1).toNat = s.sp.toNat + 1 := by rw [BitVec.toNat_add]; simp; omega
  rw [State.pop?_eq_some]
  refine ⟨by simp only [hsp]; omega, ?_, ?_⟩
  · simp only [hsp, Nat.add_sub_cancel, Vector.getElem_set_self]
  · simp

/-! ### Fetch (30_encoding.md R75) -/

/-- Where both bytes lie in the bank, fetch answers the big-endian word. -/
theorem State.fetch_ok {s : State} (h : s.pc.toNat + 1 < memSize) :
    s.fetch = .ok (wordOfBytes (s.memByte s.pc.toNat) (s.memByte (s.pc.toNat + 1))) := by
  have h0 : s.pc.toNat < memSize := by omega
  simp [State.fetch, h0, h]

/-- Where the first byte alone lies in the bank, the offending address is that of the second. -/
theorem State.fetch_second {s : State} (h : s.pc.toNat + 1 = memSize) : s.fetch = .error 0x1000 := by
  have h0 : s.pc.toNat < memSize := by omega
  have h1 : ¬ s.pc.toNat + 1 < memSize := by omega
  simp [State.fetch, h0, h1]
  simp [h, memSize]

/-- Where the first byte lies outside the bank, the offending address is `pc`. -/
theorem State.fetch_first {s : State} (h : memSize ≤ s.pc.toNat) : s.fetch = .error s.pc := by
  have h0 : ¬ s.pc.toNat < memSize := by omega
  simp [State.fetch, h0]

/-- Fetch answers a word exactly where both bytes lie in the bank. -/
theorem State.fetch_eq_ok {s : State} {w : Word} :
    s.fetch = .ok w ↔ s.pc.toNat + 1 < memSize ∧
      w = wordOfBytes (s.memByte s.pc.toNat) (s.memByte (s.pc.toNat + 1)) := by
  rcases Nat.lt_trichotomy (s.pc.toNat + 1) memSize with h | h | h
  · simp [State.fetch_ok h, h, eq_comm]
  · simp [State.fetch_second h, h]
  · have : ¬ s.pc.toNat + 1 < memSize := by omega
    simp [State.fetch_first (s := s) (by omega), this]

/-- `fetch` looks at `PC` and memory alone. -/
theorem State.fetch_congr {s t : State} (hp : t.pc = s.pc) (hm : t.mem = s.mem) : t.fetch = s.fetch := by
  simp [State.fetch, State.memRead, State.memByte, hp, hm]

/-! ### Delay timer (60_exceptions.md R160, R161) -/

theorem State.tick_dt (s : State) :
    s.tick.dt = if s.halt = false ∧ s.dt ≠ 0 then s.dt - 1 else s.dt := rfl

@[simp] theorem dtAfter_zero (dt : Byte) : dtAfter 0 dt = dt := by
  unfold dtAfter
  split
  · rename_i h; exact h.symm
  · simp

/-- As a number, `DT` falls by one in each Tick and stays at 0. -/
theorem toNat_dtAfter (n : Nat) (dt : Byte) : (dtAfter n dt).toNat = dt.toNat - n := by
  unfold dtAfter
  split
  · rename_i h; simp [h]
  · have := dt.isLt
    simp only [BitVec.toNat_ofNat]
    omega

theorem dtAfter_succ (n : Nat) (dt : Byte) :
    dtAfter (n + 1) dt = dtAfter n (if dt ≠ 0 then dt - 1 else dt) := by
  apply BitVec.eq_of_toNat_eq
  rw [toNat_dtAfter, toNat_dtAfter]
  by_cases h : dt = 0
  · subst h; simp
  · have h0 : dt.toNat ≠ 0 := fun e => h (BitVec.eq_of_toNat_eq (by simpa using e))
    have hlt := dt.isLt
    have h1 : (dt - 1).toNat = dt.toNat - 1 := by
      rw [BitVec.toNat_sub]; simp; omega
    simp only [ne_eq, h, not_false_eq_true, if_true, h1]
    omega

/-- The closed form of `n` Ticks is `n` Ticks one after another. -/
theorem State.ticks_eq_iterate_tick (s : State) (n : Nat) (h : s.halt = false) :
    s.ticks n = State.tick^[n] s := by
  induction n generalizing s with
  | zero => cases s; simp [State.ticks]
  | succ n ih =>
    rw [Function.iterate_succ_apply, ← ih s.tick (by simpa using h)]
    simp [State.ticks, State.tick, dtAfter_succ, h]

/-! ### The step -/

/-- A halted machine does nothing. -/
theorem step_of_halt {s : State} (h : s.halt = true) : step s = .next s := by simp [step, h]

/-- A running machine lets the outside world move, then runs one cycle. -/
theorem step_of_running {s : State} (h : s.halt = false) : step s = cycle s.advanceWorld := by simp [step, h]

/-- Everything a cycle can do, by the stage it ends in. -/
theorem cycle_cases (s : State) :
    (∃ a, s.fetch = .error a ∧ cycle s = .next (s.raise .outOfRange a 0)) ∨
    (∃ w, s.fetch = .ok w ∧ decodeWord w = none ∧ cycle s = .next (s.raise .unimplementedOpcode s.pc w)) ∨
    (∃ w ins, s.fetch = .ok w ∧ decodeWord w = some ins ∧ cycle s = exec ins s) := by
  unfold cycle
  cases hf : s.fetch with
  | error a => exact .inl ⟨a, rfl, rfl⟩
  | ok w =>
    cases hd : decodeWord w with
    | none => exact .inr (.inl ⟨w, rfl, hd, by simp [hd]⟩)
    | some ins => exact .inr (.inr ⟨w, ins, rfl, hd, by simp [hd]⟩)

end Sys2Proof.Machine
end

