-- ==== Sys2Proof/Laws/Draw.lean ====
section
/-! SUPPORT. What the loops of the compositor come to (43_draw.md R136): the simultaneous XOR of the sprite's
bits into the pixels under them, and a collision exactly when a bit of 1 lands on a pixel that was set. -/

namespace Sys2Proof.Machine

/-! ### Any list of bits onto distinct pixels -/

/-- Bits composed one after another, each with its pixel. -/
def Canvas.composeAll (cv : Canvas) (bits : List ((Fin 32 × Fin 64) × Bool)) : Canvas :=
  bits.foldl (fun t p => Canvas.compose t p.1.1 p.1.2 p.2) cv

/-- Some bit of 1 in the list is for this pixel. -/
def hits (bits : List ((Fin 32 × Fin 64) × Bool)) (r : Fin 32) (c : Fin 64) : Bool :=
  bits.any fun p => decide (p.1 = (r, c)) && p.2

theorem Canvas.get_compose (cv : Canvas) (r r' : Fin 32) (c c' : Fin 64) (bit : Bool) :
    Framebuffer.get (Canvas.compose cv r c bit).1 r' c' =
      (Framebuffer.get cv.1 r' c' ^^ (decide ((r, c) = (r', c')) && bit)) := by
  by_cases h : r' = r ∧ c' = c
  · obtain ⟨rfl, rfl⟩ := h
    simp [Canvas.compose, Framebuffer.get_put]
  · have h' : ¬ (r = r' ∧ c = c') := fun e => h ⟨e.1.symm, e.2.symm⟩
    simp [Canvas.compose, Framebuffer.get_put, h, h']

theorem hits_eq_false {bits : List ((Fin 32 × Fin 64) × Bool)} {r : Fin 32} {c : Fin 64}
    (h : ∀ q ∈ bits, (r, c) ≠ q.1) : hits bits r c = false := by
  simp only [hits, List.any_eq_false, Bool.and_eq_true, decide_eq_true_eq, not_and]
  intro p hp e
  exact absurd e.symm (h p hp)

/-- Onto distinct pixels the bits act all at once: each pixel is XORed with the bit for it, if any. -/
theorem Canvas.get_composeAll (bits : List ((Fin 32 × Fin 64) × Bool)) (cv : Canvas)
    (hd : bits.Pairwise fun p q => p.1 ≠ q.1) (r : Fin 32) (c : Fin 64) :
    Framebuffer.get (Canvas.composeAll cv bits).1 r c = (Framebuffer.get cv.1 r c ^^ hits bits r c) := by
  induction bits generalizing cv with
  | nil => simp [Canvas.composeAll, hits]
  | cons p bits ih =>
    obtain ⟨hp, hrest⟩ := List.pairwise_cons.1 hd
    have hstep : Canvas.composeAll cv (p :: bits) = Canvas.composeAll (Canvas.compose cv p.1.1 p.1.2 p.2) bits := rfl
    rw [hstep, ih _ hrest, Canvas.get_compose]
    by_cases hpc : p.1 = (r, c)
    · have hno : hits bits r c = false := hits_eq_false fun q hq => hpc ▸ hp q hq
      have hall : hits (p :: bits) r c = p.2 := by
        show ((decide (p.1 = (r, c)) && p.2) || hits bits r c) = p.2
        simp [hno, hpc]
      rw [hno, hall]
      simp [hpc]
    · have hall : hits (p :: bits) r c = hits bits r c := by simp [hits, hpc]
      rw [hall]
      have : ¬ ((p.1.1, p.1.2) = (r, c)) := hpc
      simp [this]

/-- Onto distinct pixels the collision looks at the pixels as they were before. -/
theorem Canvas.collided_composeAll (bits : List ((Fin 32 × Fin 64) × Bool)) (cv : Canvas)
    (hd : bits.Pairwise fun p q => p.1 ≠ q.1) :
    (Canvas.composeAll cv bits).2 = (cv.2 || bits.any fun p => Framebuffer.get cv.1 p.1.1 p.1.2 && p.2) := by
  induction bits generalizing cv with
  | nil => simp [Canvas.composeAll]
  | cons p bits ih =>
    obtain ⟨hp, hrest⟩ := List.pairwise_cons.1 hd
    have hstep : Canvas.composeAll cv (p :: bits) = Canvas.composeAll (Canvas.compose cv p.1.1 p.1.2 p.2) bits := rfl
    have hsame : (bits.any fun q => Framebuffer.get (Canvas.compose cv p.1.1 p.1.2 p.2).1 q.1.1 q.1.2 && q.2) =
        bits.any fun q => Framebuffer.get cv.1 q.1.1 q.1.2 && q.2 := by
      rw [Bool.eq_iff_iff, List.any_eq_true, List.any_eq_true]
      refine exists_congr fun q => and_congr_right fun hq => ?_
      have hne : ¬ ((p.1.1, p.1.2) = (q.1.1, q.1.2)) := hp q hq
      rw [Canvas.get_compose]
      simp [hne]
    rw [hstep, ih _ hrest, hsame]
    simp [Canvas.compose, Bool.or_assoc]

/-! ### The bits of a sprite -/

/-- The bits of one sprite row, each with its pixel. -/
def rowBits (px : Byte) (r : Fin 32) (rowByte : Byte) : List ((Fin 32 × Fin 64) × Bool) :=
  (List.range 8).map fun col => ((r, screenColumn px col), spriteBit rowByte col)

/-- The bits of a sprite, each with its pixel. -/
def spriteBits (px py : Byte) (n : Nat) (sprite : Nat → Byte) : List ((Fin 32 × Fin 64) × Bool) :=
  (List.range n).flatMap fun row => rowBits px (screenRow py row) (sprite row)

theorem Canvas.drawRow_eq (cv : Canvas) (px : Byte) (r : Fin 32) (rowByte : Byte) :
    Canvas.drawRow cv px r rowByte = Canvas.composeAll cv (rowBits px r rowByte) := by
  simp [Canvas.drawRow, Canvas.composeAll, rowBits, List.foldl_map]

theorem Canvas.composeAll_append (cv : Canvas) (l l' : List ((Fin 32 × Fin 64) × Bool)) :
    Canvas.composeAll cv (l ++ l') = Canvas.composeAll (Canvas.composeAll cv l) l' := by
  simp [Canvas.composeAll]

theorem Canvas.drawSprite_eq (cv : Canvas) (px py : Byte) (n : Nat) (sprite : Nat → Byte) :
    Canvas.drawSprite cv px py n sprite = Canvas.composeAll cv (spriteBits px py n sprite) := by
  induction n with
  | zero => rfl
  | succ n ih =>
    have h1 : Canvas.drawSprite cv px py (n + 1) sprite =
        Canvas.drawRow (Canvas.drawSprite cv px py n sprite) px (screenRow py n) (sprite n) := by
      simp [Canvas.drawSprite, List.range_succ]
    have h2 : spriteBits px py (n + 1) sprite =
        spriteBits px py n sprite ++ rowBits px (screenRow py n) (sprite n) := by
      simp [spriteBits, List.range_succ]
    rw [h1, h2, Canvas.composeAll_append, Canvas.drawRow_eq, ih]

/-- The eight columns of a row fall on distinct screen columns. -/
theorem screenColumn_injOn (px : Byte) {col col' : Nat} (h : col < 8) (h' : col' < 8)
    (he : screenColumn px col = screenColumn px col') : col = col' := by
  have := congrArg Fin.val he
  simp only [screenColumn, Fin.val_ofNat] at this
  omega

/-- At most 32 rows fall on distinct screen rows. -/
theorem screenRow_injOn (py : Byte) {row row' : Nat} (h : row < 32) (h' : row' < 32)
    (he : screenRow py row = screenRow py row') : row = row' := by
  have := congrArg Fin.val he
  simp only [screenRow, Fin.val_ofNat] at this
  omega

theorem mem_spriteBits {px py : Byte} {n : Nat} {sprite : Nat → Byte} {p : (Fin 32 × Fin 64) × Bool} :
    p ∈ spriteBits px py n sprite ↔
      ∃ row col, row < n ∧ col < 8 ∧ p = ((screenRow py row, screenColumn px col), spriteBit (sprite row) col) := by
  simp only [spriteBits, rowBits, List.mem_flatMap, List.mem_map, List.mem_range]
  constructor
  · rintro ⟨row, hrow, col, hcol, rfl⟩; exact ⟨row, col, hrow, hcol, rfl⟩
  · rintro ⟨row, col, hrow, hcol, rfl⟩; exact ⟨row, hrow, col, hcol, rfl⟩

/-- No pixel is visited twice in one draw (43_draw.md R136). -/
theorem spriteBits_distinct (px py : Byte) {n : Nat} (hn : n ≤ 32) (sprite : Nat → Byte) :
    (spriteBits px py n sprite).Pairwise fun p q => p.1 ≠ q.1 := by
  induction n with
  | zero => simp [spriteBits]
  | succ n ih =>
    have h2 : spriteBits px py (n + 1) sprite =
        spriteBits px py n sprite ++ rowBits px (screenRow py n) (sprite n) := by
      simp [spriteBits, List.range_succ]
    rw [h2, List.pairwise_append]
    refine ⟨ih (by omega), ?_, ?_⟩
    · rw [rowBits, List.pairwise_map]
      refine List.Pairwise.imp_of_mem ?_ List.pairwise_lt_range
      intro col col' hc hc' hlt he
      have := screenColumn_injOn px (List.mem_range.1 hc) (List.mem_range.1 hc') (Prod.ext_iff.1 he).2
      omega
    · intro p hp q hq he
      obtain ⟨row, col, hrow, _, rfl⟩ := mem_spriteBits.1 hp
      simp only [rowBits, List.mem_map, List.mem_range] at hq
      obtain ⟨col', _, rfl⟩ := hq
      have := screenRow_injOn py (by omega) (by omega) (Prod.ext_iff.1 he).1
      omega

/-! ### The two laws of a draw -/

/-- A sprite bit of 1 lands on this pixel. -/
def SpriteHits (px py : Byte) (n : Nat) (sprite : Nat → Byte) (r : Fin 32) (c : Fin 64) : Prop :=
  ∃ row col, row < n ∧ col < 8 ∧ screenRow py row = r ∧ screenColumn px col = c ∧
    spriteBit (sprite row) col = true

theorem hits_spriteBits {px py : Byte} {n : Nat} {sprite : Nat → Byte} {r : Fin 32} {c : Fin 64} :
    hits (spriteBits px py n sprite) r c = true ↔ SpriteHits px py n sprite r c := by
  simp only [hits, List.any_eq_true, Bool.and_eq_true, decide_eq_true_eq, SpriteHits]
  constructor
  · rintro ⟨p, hp, hpos, hbit⟩
    obtain ⟨row, col, hrow, hcol, rfl⟩ := mem_spriteBits.1 hp
    exact ⟨row, col, hrow, hcol, (Prod.ext_iff.1 hpos).1, (Prod.ext_iff.1 hpos).2, hbit⟩
  · rintro ⟨row, col, hrow, hcol, rfl, rfl, hbit⟩
    exact ⟨_, mem_spriteBits.2 ⟨row, col, hrow, hcol, rfl⟩, rfl, hbit⟩

/-- A pixel after a draw: its value before, inverted exactly when a sprite bit of 1 lands on it. -/
theorem Canvas.get_drawSprite (cv : Canvas) (px py : Byte) {n : Nat} (hn : n ≤ 32) (sprite : Nat → Byte)
    (r : Fin 32) (c : Fin 64) :
    Framebuffer.get (Canvas.drawSprite cv px py n sprite).1 r c = true ↔
      ¬ (Framebuffer.get cv.1 r c = true ↔ SpriteHits px py n sprite r c) := by
  rw [Canvas.drawSprite_eq, Canvas.get_composeAll _ _ (spriteBits_distinct px py hn sprite), ← hits_spriteBits]
  cases Framebuffer.get cv.1 r c <;> cases hits (spriteBits px py n sprite) r c <;> simp

/-- A draw collides exactly when a sprite bit of 1 lands on a pixel that was set before. -/
theorem Canvas.collided_drawSprite (fb : Framebuffer) (px py : Byte) {n : Nat} (hn : n ≤ 32)
    (sprite : Nat → Byte) :
    (Canvas.drawSprite (fb, false) px py n sprite).2 = true ↔
      ∃ r c, Framebuffer.get fb r c = true ∧ SpriteHits px py n sprite r c := by
  rw [Canvas.drawSprite_eq, Canvas.collided_composeAll _ _ (spriteBits_distinct px py hn sprite)]
  simp only [Bool.false_or, List.any_eq_true, Bool.and_eq_true]
  constructor
  · rintro ⟨p, hp, hset, hbit⟩
    obtain ⟨row, col, hrow, hcol, rfl⟩ := mem_spriteBits.1 hp
    exact ⟨_, _, hset, row, col, hrow, hcol, rfl, rfl, hbit⟩
  · rintro ⟨r, c, hset, row, col, hrow, hcol, rfl, rfl, hbit⟩
    exact ⟨_, mem_spriteBits.2 ⟨row, col, hrow, hcol, rfl⟩, hset, hbit⟩

end Sys2Proof.Machine
end

