-- ==== Sys2Proof/Laws/IndexMemory.lean ====
section
/-! SUPPORT. What the three digit stores, the register loads and the byte copies do, said once. -/

namespace Sys2Proof.Machine

/-! ### The digit stores of `Fx33` -/

theorem State.storeDigits_mem (s : State) (v : Byte) :
    (s.storeDigits v).mem =
      Memory.write (s.ea 2) (units v) (Memory.write (s.ea 1) (tens v) (Memory.write (s.ea 0) (hundreds v) s.mem)) := rfl

/-- The digit stores change the memory field alone. -/
theorem State.storeDigits_eq (s : State) (v : Byte) :
    s.storeDigits v = { s with mem := (s.storeDigits v).mem } := rfl

@[simp] theorem State.storeDigits_v (s : State) (v : Byte) : (s.storeDigits v).v = s.v := by rw [State.storeDigits_eq]
@[simp] theorem State.storeDigits_i (s : State) (v : Byte) : (s.storeDigits v).i = s.i := by rw [State.storeDigits_eq]
@[simp] theorem State.storeDigits_dt (s : State) (v : Byte) : (s.storeDigits v).dt = s.dt := by rw [State.storeDigits_eq]
@[simp] theorem State.storeDigits_pc (s : State) (v : Byte) : (s.storeDigits v).pc = s.pc := by rw [State.storeDigits_eq]
@[simp] theorem State.storeDigits_stack (s : State) (v : Byte) : (s.storeDigits v).stack = s.stack := by rw [State.storeDigits_eq]
@[simp] theorem State.storeDigits_sp (s : State) (v : Byte) : (s.storeDigits v).sp = s.sp := by rw [State.storeDigits_eq]
@[simp] theorem State.storeDigits_fb (s : State) (v : Byte) : (s.storeDigits v).fb = s.fb := by rw [State.storeDigits_eq]
@[simp] theorem State.storeDigits_halt (s : State) (v : Byte) : (s.storeDigits v).halt = s.halt := by rw [State.storeDigits_eq]
@[simp] theorem State.storeDigits_fcause (s : State) (v : Byte) : (s.storeDigits v).fcause = s.fcause := by rw [State.storeDigits_eq]
@[simp] theorem State.storeDigits_faddr (s : State) (v : Byte) : (s.storeDigits v).faddr = s.faddr := by rw [State.storeDigits_eq]
@[simp] theorem State.storeDigits_fword (s : State) (v : Byte) : (s.storeDigits v).fword = s.fword := by rw [State.storeDigits_eq]
@[simp] theorem State.storeDigits_started (s : State) (v : Byte) : (s.storeDigits v).started = s.started := by rw [State.storeDigits_eq]
@[simp] theorem State.storeDigits_keys (s : State) (v : Byte) : (s.storeDigits v).keys = s.keys := by rw [State.storeDigits_eq]
@[simp] theorem State.storeDigits_rnd (s : State) (v : Byte) : (s.storeDigits v).rnd = s.rnd := by rw [State.storeDigits_eq]
@[simp] theorem State.storeDigits_draws (s : State) (v : Byte) : (s.storeDigits v).draws = s.draws := by rw [State.storeDigits_eq]

/-- Which byte each address reads after the digit stores. -/
theorem State.memByte_storeDigits (s : State) (v : Byte) (a : Nat) :
    (s.storeDigits v).memByte a =
      if a = s.i.toNat + 2 then units v else if a = s.i.toNat + 1 then tens v
      else if a = s.i.toNat then hundreds v else s.memByte a := by
  simp only [State.storeDigits, State.memByte_setMem, State.ea, Nat.add_zero]

/-- The digit stores keep the canonical form where they fit the bank. -/
theorem State.wf_storeDigits {s : State} (v : Byte) (hfit : s.i.toNat + 2 < memSize)
    (h : Memory.wf s.mem = true) : Memory.wf (s.storeDigits v).mem = true := by
  rw [State.storeDigits_mem]
  simp only [State.ea]
  exact Memory.wf_write hfit _ (Memory.wf_write (by omega) _ (Memory.wf_write (by omega) _ h))

/-! ### The register loads of `Fx65` -/

theorem State.loadRegs_succ (s : State) (count : Nat) :
    s.loadRegs (count + 1) = (s.loadRegs count).setV (BitVec.ofNat 4 count) (s.memByte (s.ea count)) := by
  simp [State.loadRegs, List.range_succ]

/-- The register loads change the register file alone. -/
theorem State.loadRegs_eq (s : State) (count : Nat) : s.loadRegs count = { s with v := (s.loadRegs count).v } := by
  induction count with
  | zero => rfl
  | succ count ih => rw [State.loadRegs_succ, ih]; rfl

@[simp] theorem State.loadRegs_i (s : State) (count : Nat) : (s.loadRegs count).i = s.i := by rw [State.loadRegs_eq]
@[simp] theorem State.loadRegs_dt (s : State) (count : Nat) : (s.loadRegs count).dt = s.dt := by rw [State.loadRegs_eq]
@[simp] theorem State.loadRegs_pc (s : State) (count : Nat) : (s.loadRegs count).pc = s.pc := by rw [State.loadRegs_eq]
@[simp] theorem State.loadRegs_stack (s : State) (count : Nat) : (s.loadRegs count).stack = s.stack := by rw [State.loadRegs_eq]
@[simp] theorem State.loadRegs_sp (s : State) (count : Nat) : (s.loadRegs count).sp = s.sp := by rw [State.loadRegs_eq]
@[simp] theorem State.loadRegs_fb (s : State) (count : Nat) : (s.loadRegs count).fb = s.fb := by rw [State.loadRegs_eq]
@[simp] theorem State.loadRegs_mem (s : State) (count : Nat) : (s.loadRegs count).mem = s.mem := by rw [State.loadRegs_eq]
@[simp] theorem State.loadRegs_halt (s : State) (count : Nat) : (s.loadRegs count).halt = s.halt := by rw [State.loadRegs_eq]
@[simp] theorem State.loadRegs_fcause (s : State) (count : Nat) : (s.loadRegs count).fcause = s.fcause := by rw [State.loadRegs_eq]
@[simp] theorem State.loadRegs_faddr (s : State) (count : Nat) : (s.loadRegs count).faddr = s.faddr := by rw [State.loadRegs_eq]
@[simp] theorem State.loadRegs_fword (s : State) (count : Nat) : (s.loadRegs count).fword = s.fword := by rw [State.loadRegs_eq]
@[simp] theorem State.loadRegs_started (s : State) (count : Nat) : (s.loadRegs count).started = s.started := by rw [State.loadRegs_eq]
@[simp] theorem State.loadRegs_keys (s : State) (count : Nat) : (s.loadRegs count).keys = s.keys := by rw [State.loadRegs_eq]
@[simp] theorem State.loadRegs_rnd (s : State) (count : Nat) : (s.loadRegs count).rnd = s.rnd := by rw [State.loadRegs_eq]
@[simp] theorem State.loadRegs_draws (s : State) (count : Nat) : (s.loadRegs count).draws = s.draws := by rw [State.loadRegs_eq]

/-- Which value each register holds after the register loads. -/
theorem State.getV_loadRegs (s : State) (count : Nat) (hc : count ≤ 16) (z : Reg) :
    (s.loadRegs count).getV z = if z.toNat < count then s.memByte (s.i.toNat + z.toNat) else s.getV z := by
  induction count with
  | zero => simp [State.loadRegs]
  | succ count ih =>
    rw [State.loadRegs_succ, State.getV_setV, ih (by omega)]
    have hcount : (BitVec.ofNat 4 count).toNat = count := by simp; omega
    by_cases hz : z = BitVec.ofNat 4 count
    · subst hz
      simp only [if_true, hcount, State.ea, Nat.lt_succ_self]
    · have hne : z.toNat ≠ count := fun e => hz (BitVec.eq_of_toNat_eq (by rw [hcount, e]))
      simp only [hz, if_false]
      split <;> split <;> first | rfl | omega

/-! ### Bytes copied to memory -/

/-- The copy changes the memory field alone. -/
theorem State.storeBytes_eq (s : State) (a : Nat) (bs : List Byte) :
    s.storeBytes a bs = { s with mem := (s.storeBytes a bs).mem } := by
  induction bs generalizing s a with
  | nil => rfl
  | cons b bs ih => rw [State.storeBytes, ih]; rfl

@[simp] theorem State.storeBytes_v (s : State) (a : Nat) (bs : List Byte) : (s.storeBytes a bs).v = s.v := by rw [State.storeBytes_eq]
@[simp] theorem State.storeBytes_i (s : State) (a : Nat) (bs : List Byte) : (s.storeBytes a bs).i = s.i := by rw [State.storeBytes_eq]
@[simp] theorem State.storeBytes_dt (s : State) (a : Nat) (bs : List Byte) : (s.storeBytes a bs).dt = s.dt := by rw [State.storeBytes_eq]
@[simp] theorem State.storeBytes_pc (s : State) (a : Nat) (bs : List Byte) : (s.storeBytes a bs).pc = s.pc := by rw [State.storeBytes_eq]
@[simp] theorem State.storeBytes_stack (s : State) (a : Nat) (bs : List Byte) : (s.storeBytes a bs).stack = s.stack := by rw [State.storeBytes_eq]
@[simp] theorem State.storeBytes_sp (s : State) (a : Nat) (bs : List Byte) : (s.storeBytes a bs).sp = s.sp := by rw [State.storeBytes_eq]
@[simp] theorem State.storeBytes_fb (s : State) (a : Nat) (bs : List Byte) : (s.storeBytes a bs).fb = s.fb := by rw [State.storeBytes_eq]
@[simp] theorem State.storeBytes_halt (s : State) (a : Nat) (bs : List Byte) : (s.storeBytes a bs).halt = s.halt := by rw [State.storeBytes_eq]
@[simp] theorem State.storeBytes_fcause (s : State) (a : Nat) (bs : List Byte) : (s.storeBytes a bs).fcause = s.fcause := by rw [State.storeBytes_eq]
@[simp] theorem State.storeBytes_faddr (s : State) (a : Nat) (bs : List Byte) : (s.storeBytes a bs).faddr = s.faddr := by rw [State.storeBytes_eq]
@[simp] theorem State.storeBytes_fword (s : State) (a : Nat) (bs : List Byte) : (s.storeBytes a bs).fword = s.fword := by rw [State.storeBytes_eq]
@[simp] theorem State.storeBytes_started (s : State) (a : Nat) (bs : List Byte) : (s.storeBytes a bs).started = s.started := by rw [State.storeBytes_eq]
@[simp] theorem State.storeBytes_keys (s : State) (a : Nat) (bs : List Byte) : (s.storeBytes a bs).keys = s.keys := by rw [State.storeBytes_eq]
@[simp] theorem State.storeBytes_rnd (s : State) (a : Nat) (bs : List Byte) : (s.storeBytes a bs).rnd = s.rnd := by rw [State.storeBytes_eq]
@[simp] theorem State.storeBytes_draws (s : State) (a : Nat) (bs : List Byte) : (s.storeBytes a bs).draws = s.draws := by rw [State.storeBytes_eq]

/-- Which byte each address reads after the copy. -/
theorem State.memByte_storeBytes (s : State) (a : Nat) (bs : List Byte) (c : Nat) :
    (s.storeBytes a bs).memByte c =
      if a ≤ c ∧ c < a + bs.length then bs.getD (c - a) 0 else s.memByte c := by
  induction bs generalizing s a with
  | nil => simp [State.storeBytes]
  | cons b bs ih =>
    rw [State.storeBytes, ih, State.memByte_setMem]
    by_cases h1 : a + 1 ≤ c ∧ c < a + 1 + bs.length
    · have h2 : a ≤ c ∧ c < a + (b :: bs).length := by simp; omega
      have h3 : c - a = (c - (a + 1)) + 1 := by omega
      simp only [h1, h2, and_self, if_true, h3, List.getD_cons_succ]
    · by_cases h4 : c = a
      · subst h4
        simp
      · have h2 : ¬ (a ≤ c ∧ c < a + (b :: bs).length) := by simp; omega
        simp only [h1, h2, h4, if_false]

/-- The copy keeps the canonical form where it fits the bank. -/
theorem State.wf_storeBytes {s : State} {a : Nat} (bs : List Byte) (hfit : a + bs.length ≤ memSize)
    (h : Memory.wf s.mem = true) : Memory.wf (s.storeBytes a bs).mem = true := by
  induction bs generalizing s a with
  | nil => exact h
  | cons b bs ih =>
    simp only [List.length_cons] at hfit
    exact ih (by omega) (Memory.wf_write (by omega) b h)

/-! ### Access ranges -/

theorem State.accessFits_iff (s : State) (len : Nat) :
    s.accessFits len = true ↔ len = 0 ∨ s.i.toNat + (len - 1) < memSize := by
  rw [State.accessFits, Bool.or_eq_true]
  exact or_congr decide_eq_true_iff decide_eq_true_iff

end Sys2Proof.Machine
end

