-- ==== Sys2Proof/Laws/Frame.lean ====
section
/-! SUPPORT. What is left unchanged, from equal fields, and the record of a fatal condition. -/

namespace Sys2Proof.Machine

theorem sameRegs_of_v {s t : State} (h : t.v = s.v) : SameRegs s t := fun z => State.getV_congr h z

theorem sameMem_of_mem {s t : State} (h : t.mem = s.mem) : SameMem s t := fun a => State.memByte_congr h a

theorem sameScreen_of_fb {s t : State} (h : t.fb = s.fb) : SameScreen s t := fun r c => State.pixel_congr h r c

theorem sameStack_of_fields {s t : State} (hs : t.stack = s.stack) (hp : t.sp = s.sp) : SameStack s t :=
  ⟨hp, fun k => by simp [hs]⟩

theorem sameRegsBut_setV (s : State) (x : Reg) (b : Byte) : SameRegsBut x s (s.setV x b) :=
  fun _ hz => State.getV_setV_ne s hz b

theorem sameOutside_of_fields {s t : State} (hm : t.mem = s.mem) (hf : t.fb = s.fb) (hs : t.stack = s.stack)
    (hp : t.sp = s.sp) (hr : SameRecord s t) (hi : SameInputs s t) : SameOutside s t :=
  ⟨sameMem_of_mem hm, sameScreen_of_fb hf, sameStack_of_fields hs hp, hr, hi⟩

/-- Taking a fatal condition writes the record and changes nothing else. -/
theorem tookFatal_raise (s : State) (c : Cause) (a w : Word) : TookFatal c.code a w s (s.raise c a w) :=
  ⟨⟨rfl, rfl, rfl, rfl⟩, rfl, sameRegs_of_v rfl, ⟨rfl, rfl⟩, sameMem_of_mem rfl, sameScreen_of_fb rfl,
    sameStack_of_fields rfl rfl, rfl, rfl, rfl, rfl⟩

/-- The cause codes are 1 to 5 (60_exceptions.md R150). -/
theorem Cause.code_range (c : Cause) : 1 ≤ c.code.toNat ∧ c.code.toNat ≤ 5 := by cases c <;> decide

/-- For an `I` of the bank the first out-of-range data address is 0x1000 (20_memory.md R58). -/
theorem State.firstOutOfRange_eq {s : State} (h : s.i.toNat ≤ 0xFFF) : s.firstOutOfRange = 0x1000 :=
  if_pos (show s.i.toNat < memSize by simp only [memSize]; omega)

end Sys2Proof.Machine
end

