-- ==== Sys2Proof/Laws/Exec.lean ====
section
/-! SUPPORT. The inversion of `exec`: an instruction that answers a next state took its fatal condition, or
left the halt latch and the fault record alone. -/

namespace Sys2Proof.Machine

/-- A next state of an instruction is the state with a fatal condition raised and nothing else changed, or has
the record of the state before. -/
theorem exec_raised_or_kept_record {ins : Instr} {s t : State} (h : exec ins s = .next t) :
    (∃ c a, t = s.raise c a (encode ins)) ∨ SameRecord s t := by
  cases ins <;> simp only [exec] at h
  case ret =>
    unfold execRet at h
    split at h
    · injection h with h; exact .inl ⟨_, _, h.symm⟩
    · split at h
      · rename_i a s' hp
        obtain ⟨_, rfl, rfl⟩ := State.pop?_eq_some.1 hp
        injection h with h; subst h
        exact .inr ⟨rfl, rfl, rfl, rfl⟩
      · cases h
  case call nnn =>
    unfold execCall at h
    split at h
    · rename_i s' hp
      obtain ⟨_, rfl⟩ := State.push?_eq_some.1 hp
      injection h with h; subst h
      exact .inr ⟨rfl, rfl, rfl, rfl⟩
    · injection h with h; exact .inl ⟨_, _, h.symm⟩
  case ldB x =>
    unfold execLdB at h
    split at h <;> injection h with h
    · subst h; exact .inr ⟨by simp, by simp, by simp, by simp⟩
    · exact .inl ⟨_, _, h.symm⟩
  case ldRegs x =>
    unfold execLdRegs at h
    split at h <;> injection h with h
    · subst h; exact .inr ⟨by simp, by simp, by simp, by simp⟩
    · exact .inl ⟨_, _, h.symm⟩
  case drw x y n =>
    unfold execDrw at h
    split at h <;> injection h with h
    · subst h; exact .inr ⟨rfl, rfl, rfl, rfl⟩
    · exact .inl ⟨_, _, h.symm⟩
  case skp x =>
    simp only [execSkp, State.keyTest] at h
    split at h <;> injection h with h
    · exact .inl ⟨_, _, h.symm⟩
    · subst h; exact .inr ⟨rfl, rfl, rfl, rfl⟩
  case sknp x =>
    simp only [execSknp, State.keyTest] at h
    split at h <;> injection h with h
    · exact .inl ⟨_, _, h.symm⟩
    · subst h; exact .inr ⟨rfl, rfl, rfl, rfl⟩
  all_goals
    injection h with h
    subst h
    exact .inr ⟨rfl, rfl, rfl, rfl⟩

/-- An instruction that answers a next state where the stack pointer is in its range of 10_state.md R31 is
every instruction. -/
theorem exec_answers_next (ins : Instr) {s : State} (h : s.sp.toNat ≤ 16) : ∃ t, exec ins s = .next t := by
  cases ins <;> simp only [exec]
  case ret =>
    unfold execRet
    split
    · exact ⟨_, rfl⟩
    · rename_i h0
      have h1 : s.sp.toNat ≠ 0 := fun e => h0 (BitVec.eq_of_toNat_eq (by simpa using e))
      rw [State.pop?_eq_some.2 ⟨⟨by omega, h⟩, rfl, rfl⟩]
      exact ⟨_, rfl⟩
  case call => unfold execCall; split <;> exact ⟨_, rfl⟩
  case ldB => unfold execLdB; split <;> exact ⟨_, rfl⟩
  case ldRegs => unfold execLdRegs; split <;> exact ⟨_, rfl⟩
  case drw => unfold execDrw; split <;> exact ⟨_, rfl⟩
  all_goals exact ⟨_, rfl⟩

end Sys2Proof.Machine
end

