-- ==== Sys2Proof/Laws/Operations.lean ====
section
/-! SUPPORT. What Reset leaves for every value of the parameter `FONT`, and runs of Ticks. -/

namespace Sys2Proof.Machine

/-! ### Reset (10_state.md R37, R42) -/

/-- With the default font the reset state lists no byte of memory: it is `State.reset`. -/
theorem State.resetWith_defaultFont : State.resetWith defaultFont = State.reset := by decide +kernel

/-- Seeding a font changes the memory field alone. -/
theorem State.resetWith_eq (f : Font) : State.resetWith f = { State.reset with mem := (State.resetWith f).mem } :=
  State.storeBytes_eq State.reset fontBase f.toList

@[simp] theorem State.resetWith_v (f : Font) : (State.resetWith f).v = State.reset.v := by rw [State.resetWith_eq]
@[simp] theorem State.resetWith_i (f : Font) : (State.resetWith f).i = State.reset.i := by rw [State.resetWith_eq]
@[simp] theorem State.resetWith_dt (f : Font) : (State.resetWith f).dt = State.reset.dt := by rw [State.resetWith_eq]
@[simp] theorem State.resetWith_pc (f : Font) : (State.resetWith f).pc = State.reset.pc := by rw [State.resetWith_eq]
@[simp] theorem State.resetWith_stack (f : Font) : (State.resetWith f).stack = State.reset.stack := by rw [State.resetWith_eq]
@[simp] theorem State.resetWith_sp (f : Font) : (State.resetWith f).sp = State.reset.sp := by rw [State.resetWith_eq]
@[simp] theorem State.resetWith_fb (f : Font) : (State.resetWith f).fb = State.reset.fb := by rw [State.resetWith_eq]
@[simp] theorem State.resetWith_halt (f : Font) : (State.resetWith f).halt = State.reset.halt := by rw [State.resetWith_eq]
@[simp] theorem State.resetWith_fcause (f : Font) : (State.resetWith f).fcause = State.reset.fcause := by rw [State.resetWith_eq]
@[simp] theorem State.resetWith_faddr (f : Font) : (State.resetWith f).faddr = State.reset.faddr := by rw [State.resetWith_eq]
@[simp] theorem State.resetWith_fword (f : Font) : (State.resetWith f).fword = State.reset.fword := by rw [State.resetWith_eq]
@[simp] theorem State.resetWith_started (f : Font) : (State.resetWith f).started = State.reset.started := by rw [State.resetWith_eq]
@[simp] theorem State.resetWith_keys (f : Font) : (State.resetWith f).keys = State.reset.keys := by rw [State.resetWith_eq]
@[simp] theorem State.resetWith_rnd (f : Font) : (State.resetWith f).rnd = State.reset.rnd := by rw [State.resetWith_eq]
@[simp] theorem State.resetWith_draws (f : Font) : (State.resetWith f).draws = State.reset.draws := by rw [State.resetWith_eq]

@[simp] theorem State.resetOp_mem (f : Font) (s : State) : (s.resetOp f).mem = (State.resetWith f).mem := rfl

/-- Reset is the reset state with the font seeded and the index of free inputs kept. -/
theorem State.resetOp_eq (f : Font) (s : State) :
    s.resetOp f = { State.reset with mem := (State.resetWith f).mem, draws := s.draws } := by
  rw [State.resetOp, State.resetWith_eq]

@[simp] theorem State.resetOp_v (f : Font) (s : State) : (s.resetOp f).v = State.reset.v := by rw [State.resetOp_eq]
@[simp] theorem State.resetOp_i (f : Font) (s : State) : (s.resetOp f).i = State.reset.i := by rw [State.resetOp_eq]
@[simp] theorem State.resetOp_dt (f : Font) (s : State) : (s.resetOp f).dt = State.reset.dt := by rw [State.resetOp_eq]
@[simp] theorem State.resetOp_pc (f : Font) (s : State) : (s.resetOp f).pc = State.reset.pc := by rw [State.resetOp_eq]
@[simp] theorem State.resetOp_stack (f : Font) (s : State) : (s.resetOp f).stack = State.reset.stack := by rw [State.resetOp_eq]
@[simp] theorem State.resetOp_sp (f : Font) (s : State) : (s.resetOp f).sp = State.reset.sp := by rw [State.resetOp_eq]
@[simp] theorem State.resetOp_fb (f : Font) (s : State) : (s.resetOp f).fb = State.reset.fb := by rw [State.resetOp_eq]
@[simp] theorem State.resetOp_halt (f : Font) (s : State) : (s.resetOp f).halt = State.reset.halt := by rw [State.resetOp_eq]
@[simp] theorem State.resetOp_fcause (f : Font) (s : State) : (s.resetOp f).fcause = State.reset.fcause := by rw [State.resetOp_eq]
@[simp] theorem State.resetOp_faddr (f : Font) (s : State) : (s.resetOp f).faddr = State.reset.faddr := by rw [State.resetOp_eq]
@[simp] theorem State.resetOp_fword (f : Font) (s : State) : (s.resetOp f).fword = State.reset.fword := by rw [State.resetOp_eq]
@[simp] theorem State.resetOp_started (f : Font) (s : State) : (s.resetOp f).started = State.reset.started := by rw [State.resetOp_eq]
@[simp] theorem State.resetOp_keys (f : Font) (s : State) : (s.resetOp f).keys = State.reset.keys := by rw [State.resetOp_eq]
@[simp] theorem State.resetOp_rnd (f : Font) (s : State) : (s.resetOp f).rnd = State.reset.rnd := by rw [State.resetOp_eq]
@[simp] theorem State.resetOp_draws (f : Font) (s : State) : (s.resetOp f).draws = s.draws := rfl

/-- A glyph byte after Reset is the byte of the machine's font. -/
theorem State.memByte_resetWith_font (f : Font) (j : Fin 80) :
    (State.resetWith f).memByte (fontBase + j.val) = f[j.val]'j.isLt := by
  have hj := j.isLt
  rw [State.resetWith, State.memByte_storeBytes, if_pos (by simp), Nat.add_sub_cancel_left]
  simp [List.getD, hj]

/-- Every byte outside the font is zero after Reset. -/
theorem State.memByte_resetWith_zero (f : Font) {a : Nat} (h : a < fontBase ∨ fontBase + 80 ≤ a) :
    (State.resetWith f).memByte a = 0 := by
  rw [State.resetWith, State.memByte_storeBytes, if_neg (by simp; omega)]
  show resetByte a = 0
  rw [resetByte]
  split
  · rfl
  · exact List.getD_eq_default _ _ (by show 80 ≤ _; omega)

/-- The memory after Reset has the canonical form. -/
theorem State.wf_resetWith (f : Font) : Memory.wf (State.resetWith f).mem = true :=
  State.wf_storeBytes f.toList (by simp [memSize, fontBase]) Memory.wf_reset

/-! ### Operations in a row -/

/-- Ticks in front of a sequence of operations. -/
theorem applyOps_ticks (f : Font) (n : Nat) (s : State) (ops : List Op) :
    applyOps f (List.replicate n .tick ++ ops) s = applyOps f ops (State.tick^[n] s) := by
  induction n generalizing s with
  | zero => rfl
  | succ n ih => simp [List.replicate_succ, applyOps, applyOp, ih]

/-- A sequence of one operation. -/
@[simp] theorem applyOps_singleton (f : Font) (op : Op) (s : State) : applyOps f [op] s = applyOp f op s := by
  simp only [applyOps]
  split <;> simp_all

end Sys2Proof.Machine
end

