-- ==== Sys2Proof/Laws/PerInstr.lean ====
section
/-! SUPPORT. The per-instruction family RoundTrip: the word of a well-formed instruction decodes to that
instruction. -/

namespace Sys2Proof.Laws.RoundTrip

/-- Every operand, at every value its field admits, comes back from the instruction's own word. -/
def Statement (i : Instr) : Prop := wellFormed i = true → decodeWord (encode i) = some i

theorem ret : Statement .ret := fun _ => rfl

theorem jp (nnn : Word) : Statement (.jp nnn) := fun h => by
  simp [decodeWord, encode, fieldNNN_formatA _ (show nnn.toNat < 0x1000 by simpa [wellFormed, addressFits] using h)]

theorem call (nnn : Word) : Statement (.call nnn) := fun h => by
  simp [decodeWord, encode, fieldNNN_formatA _ (show nnn.toNat < 0x1000 by simpa [wellFormed, addressFits] using h)]

theorem se (x : Reg) (kk : Byte) : Statement (.se x kk) := fun _ => by simp [decodeWord, encode]

theorem sne (x : Reg) (kk : Byte) : Statement (.sne x kk) := fun _ => by simp [decodeWord, encode]

theorem ldImm (x : Reg) (kk : Byte) : Statement (.ldImm x kk) := fun _ => by simp [decodeWord, encode]

theorem addImm (x : Reg) (kk : Byte) : Statement (.addImm x kk) := fun _ => by simp [decodeWord, encode]

theorem ldReg (x y : Reg) : Statement (.ldReg x y) := fun _ => by simp [decodeWord, encode]

theorem andReg (x y : Reg) : Statement (.andReg x y) := fun _ => by simp [decodeWord, encode]

theorem addReg (x y : Reg) : Statement (.addReg x y) := fun _ => by simp [decodeWord, encode]

theorem subReg (x y : Reg) : Statement (.subReg x y) := fun _ => by simp [decodeWord, encode]

theorem ldI (nnn : Word) : Statement (.ldI nnn) := fun h => by
  simp [decodeWord, encode, fieldNNN_formatA _ (show nnn.toNat < 0x1000 by simpa [wellFormed, addressFits] using h)]

theorem rnd (x : Reg) (kk : Byte) : Statement (.rnd x kk) := fun _ => by simp [decodeWord, encode]

theorem drw (x y : Reg) (n : Nat) : Statement (.drw x y n) := fun h => by
  have hn : n < 16 := by simpa [wellFormed, rowsFit] using h
  simp [decodeWord, encode, Nat.mod_eq_of_lt hn]

theorem skp (x : Reg) : Statement (.skp x) := fun _ => by simp [decodeWord, encode]

theorem sknp (x : Reg) : Statement (.sknp x) := fun _ => by simp [decodeWord, encode]

theorem ldVxDt (x : Reg) : Statement (.ldVxDt x) := fun _ => by simp [decodeWord, encode]

theorem ldDtVx (x : Reg) : Statement (.ldDtVx x) := fun _ => by simp [decodeWord, encode]

theorem ldF (x : Reg) : Statement (.ldF x) := fun _ => by simp [decodeWord, encode]

theorem ldB (x : Reg) : Statement (.ldB x) := fun _ => by simp [decodeWord, encode]

theorem ldRegs (x : Reg) : Statement (.ldRegs x) := fun _ => by simp [decodeWord, encode]

end Sys2Proof.Laws.RoundTrip
end

