-- ==== Sys2Proof/Tests/Slice0.lean ====
section
/-! SUPPORT. The model's own tests. Every expected value is taken from spec/: the words from the patterns of
30_encoding.md R78, the vectors (V-…, E…, P…) from 95_test_vectors.md, the rest by hand from the rule cited. -/

namespace Sys2Proof.Tests

open Sys2Proof Sys2Proof.Machine

/-! ### WellFormed: each check refuses an ill-formed term -/

theorem test_wellFormed_jp_refuses_13_bits : wellFormed (.jp 0x1000) = false := by decide
theorem test_wellFormed_call_refuses_13_bits : wellFormed (.call 0x1234) = false := by decide
theorem test_wellFormed_ldI_refuses_16_bits : wellFormed (.ldI 0xFFFF) = false := by decide
theorem test_wellFormed_drw_refuses_16_rows : wellFormed (.drw 0 1 16) = false := by decide
theorem test_wellFormed_accepts_bounds :
    wellFormed (.jp 0xFFF) = true ∧ wellFormed (.drw 0xF 0xF 15) = true := by decide

/-! ### Decode: a word written out for every constructor -/

theorem test_decode_ret : decodeTableWord 16 0x00EE = some .ret := by decide
theorem test_decode_jp : decodeTableWord 16 0x1ABC = some (.jp 0xABC) := by decide
theorem test_decode_call : decodeTableWord 16 0x2300 = some (.call 0x300) := by decide
theorem test_decode_se : decodeTableWord 16 0x347F = some (.se 4 0x7F) := by decide
theorem test_decode_sne : decodeTableWord 16 0x447E = some (.sne 4 0x7E) := by decide
theorem test_decode_ldImm : decodeTableWord 16 0x6AD6 = some (.ldImm 0xA 0xD6) := by decide
theorem test_decode_addImm : decodeTableWord 16 0x7302 = some (.addImm 3 0x02) := by decide
theorem test_decode_ldReg : decodeTableWord 16 0x8120 = some (.ldReg 1 2) := by decide
theorem test_decode_andReg : decodeTableWord 16 0x8012 = some (.andReg 0 1) := by decide
theorem test_decode_addReg : decodeTableWord 16 0x8F14 = some (.addReg 0xF 1) := by decide
theorem test_decode_subReg : decodeTableWord 16 0x80F5 = some (.subReg 0 0xF) := by decide
theorem test_decode_ldI : decodeTableWord 16 0xA30C = some (.ldI 0x30C) := by decide
theorem test_decode_rnd : decodeTableWord 16 0xC5F0 = some (.rnd 5 0xF0) := by decide
theorem test_decode_drw : decodeTableWord 16 0xD125 = some (.drw 1 2 5) := by decide
theorem test_decode_skp : decodeTableWord 16 0xE79E = some (.skp 7) := by decide
theorem test_decode_sknp : decodeTableWord 16 0xE7A1 = some (.sknp 7) := by decide
theorem test_decode_ldVxDt : decodeTableWord 16 0xF107 = some (.ldVxDt 1) := by decide
theorem test_decode_ldDtVx : decodeTableWord 16 0xF215 = some (.ldDtVx 2) := by decide
theorem test_decode_ldF : decodeTableWord 16 0xF329 = some (.ldF 3) := by decide
theorem test_decode_ldB : decodeTableWord 16 0xF733 = some (.ldB 7) := by decide
theorem test_decode_ldRegs : decodeTableWord 16 0xFF65 = some (.ldRegs 0xF) := by decide

/-- V-F5 to V-F9, V-K8, E11: words of every class that no row selects. -/
theorem test_decode_unimplemented :
    [0x0000, 0x00E0, 0x01EE, 0x5000, 0x8011, 0x8013, 0x8016, 0x8017, 0x801E, 0x9120, 0xB300, 0xE09F, 0xF055,
      0xF00A, 0xF018, 0xF01E].all (fun w => (decodeTableWord 16 w).isNone) = true := by decide

/-- 30_encoding.md R76: no two patterns overlap. -/
theorem test_rows_do_not_overlap :
    opcodeRows.Pairwise (fun a b => (a.1 ^^^ b.1) &&& (a.2 &&& b.2) ≠ 0) := by decide

theorem test_decode_truncated : decode [0x60] = .error .truncated := by decide

/-! ### Single steps -/

/-- The reset state with a word at 0x200. -/
def boot (w : Word) : State := State.reset.placeWord w

/-- The state after one Step in which every key is up but those given, and the random byte is `rnd`. -/
def after (s : State) (keys : BitVec 16 := 0) (rnd : Byte := 0) : State :=
  match stepWith keys rnd s with
  | .next t => t
  | _ => State.reset

/-- The record of a halted machine: latch, cause, address, word. -/
def record (t : State) : Bool × BitVec 3 × Word × Word := (t.halt, t.fcause, t.faddr, t.fword)

-- V-C3: the target is unchecked, the fetch after it faults
theorem test_jp_to_top_then_fetch_faults :
    record (after (after (boot 0x1FFF))) = (true, 1, 0x1000, 0) ∧ (after (after (boot 0x1FFF))).pc = 0xFFF := by
  decide +kernel
-- V-C6
theorem test_call_sixteenth_frame :
    let t := after { boot 0x2300 with sp := 15 }
    t.stack[15] = 0x202 ∧ t.sp = 16 ∧ t.pc = 0x300 := by decide +kernel
-- V-C7
theorem test_call_seventeenth_overflows :
    let t := after { boot 0x2300 with sp := 16 }
    record t = (true, 3, 0x200, 0x2300) ∧ t.sp = 16 ∧ t.pc = 0x200 := by decide +kernel
-- V-C10
theorem test_ret_last_in_first_out :
    let t := after { boot 0x00EE with sp := 2, stack := (State.reset.stack.set 0 0x210).set 1 0x320 }
    t.sp = 1 ∧ t.pc = 0x320 := by decide +kernel
-- V-C9
theorem test_ret_underflows : record (after (boot 0x00EE)) = (true, 4, 0x200, 0x00EE) := by decide +kernel
-- V-C11, V-C12
theorem test_se :
    (after ((boot 0x347F).setV 4 0x7F)).pc = 0x204 ∧ (after ((boot 0x347E).setV 4 0x7F)).pc = 0x202 := by
  decide +kernel
-- V-C13, V-C14
theorem test_sne :
    (after ((boot 0x447F).setV 4 0x7F)).pc = 0x202 ∧ (after ((boot 0x447E).setV 4 0x7F)).pc = 0x204 := by
  decide +kernel
-- V-C17
theorem test_skip_at_top : (after ({ State.reset with pc := 0xFFE }.placeWord 0x3000)).pc = 0x1002 := by
  decide +kernel
-- V-A1, V-A2
theorem test_ldImm : (after ((boot 0x6A00).setV 0xA 0x55)).getV 0xA = 0 ∧ (after (boot 0x6FFF)).getV 0xF = 0xFF := by
  decide +kernel
-- E2
theorem test_addImm_wraps_without_flag :
    let t := after (((boot 0x7302).setV 3 0xFF).setV 0xF 1)
    t.getV 3 = 1 ∧ t.getV 0xF = 1 := by decide +kernel
-- V-A7
theorem test_ldReg : (after ((boot 0x8120).setV 2 0x3C)).getV 1 = 0x3C := by decide +kernel
-- V-A9
theorem test_andReg :
    let t := after ((((boot 0x8012).setV 0 0xF0).setV 1 0x3C).setV 0xF 1)
    t.getV 0 = 0x30 ∧ t.getV 0xF = 1 := by decide +kernel
-- E3, V-A18, V-A20
theorem test_addReg :
    (after (((boot 0x8014).setV 0 0xFF).setV 1 1)).getV 0xF = 1 ∧
    (after (((boot 0x80F4).setV 0 1).setV 0xF 1)).getV 0 = 2 ∧
    (after (((boot 0x8F14).setV 0xF 5).setV 1 3)).getV 0xF = 0 := by decide +kernel
-- E6, V-A25, V-A27
theorem test_subReg :
    (after (((boot 0x8015).setV 0 3).setV 1 5)).getV 0 = 0xFE ∧
    (after ((boot 0x8335).setV 3 0x42)).getV 0xF = 1 ∧
    (after (((boot 0x8F15).setV 0xF 5).setV 1 3)).getV 0xF = 1 := by decide +kernel
-- V-A29, V-A31
theorem test_rnd :
    (after (boot 0xC00F) 0 0xA7).getV 0 = 7 ∧ (after (boot 0xC0FF) 0 0xA7).getV 0 = 0xA7 := by decide +kernel
-- V-M2
theorem test_ldI : (after (boot 0xAFFF)).i = 0xFFF := by decide +kernel
-- V-M4, V-M6
theorem test_ldF : (after ((boot 0xF029).setV 0 0xF)).i = 0x9B ∧ (after ((boot 0xF029).setV 0 0xFF)).i = 0x54B := by
  decide +kernel
-- V-M13
theorem test_ldB_last_legal_base :
    let t := after { (boot 0xF733).setV 7 0x7B with i := 0xFFD }
    [t.memByte 0xFFD, t.memByte 0xFFE, t.memByte 0xFFF] = [1, 2, 3] := by decide +kernel
-- V-M14
theorem test_ldB_out_of_range :
    let t := after { (boot 0xF733).setV 7 0x7B with i := 0xFFE }
    record t = (true, 1, 0x1000, 0xF733) ∧ t.memByte 0xFFE = 0 := by decide +kernel
-- V-M20
theorem test_ldRegs_reads_glyph_zero :
    let t := after { boot 0xF465 with i := 0x050 }
    [t.getV 0, t.getV 1, t.getV 2, t.getV 3, t.getV 4, t.getV 5] = [0xF0, 0x90, 0x90, 0x90, 0xF0, 0] := by
  decide +kernel
-- V-M18
theorem test_ldRegs_out_of_range :
    let t := after { (boot 0xFF65).setV 0 0x11 with i := 0xFF1 }
    record t = (true, 1, 0x1000, 0xFF65) ∧ t.getV 0 = 0x11 := by decide +kernel
-- P3, the first draw: wrap on both axes
theorem test_drw_wraps :
    let t := after { ((((boot 0xD012).setV 0 0x3F).setV 1 0x1F).setMem 0x20E 0xC0).setMem 0x20F 0x80 with i := 0x20E }
    t.pixel 31 63 = true ∧ t.pixel 31 0 = true ∧ t.pixel 0 63 = true ∧ t.pixel 0 0 = false ∧ t.getV 0xF = 0 := by
  decide +kernel
-- V-D7, V-D9
theorem test_drw_collides_and_bit_zero_is_column_seven :
    let t := after { (boot 0xD011).setMem 0x300 0xA1 with
      i := 0x300, fb := Framebuffer.put State.reset.fb 0 2 true }
    t.pixel 0 0 = true ∧ t.pixel 0 2 = false ∧ t.pixel 0 7 = true ∧ t.getV 0xF = 1 := by decide +kernel
-- V-K1, V-K6
theorem test_skp :
    (after ((boot 0xE09E).setV 0 5) 0x0020).pc = 0x204 ∧
    record (after ((boot 0xE09E).setV 0 0x10)) = (true, 5, 0x200, 0xE09E) := by decide +kernel
-- V-K3, V-K4
theorem test_sknp :
    (after ((boot 0xE0A1).setV 0 5) 0x0020).pc = 0x202 ∧ (after ((boot 0xE0A1).setV 0 5) 0xFFDF).pc = 0x204 := by
  decide +kernel
-- V-T2
theorem test_ldVxDt : (after { boot 0xF107 with dt := 0x0A }).getV 1 = 0x0A := by decide +kernel
-- V-T1
theorem test_ldDtVx : (after ((boot 0xF015).setV 0 0x0A)).dt = 0x0A := by decide +kernel
-- V-T3, V-T6
theorem test_tick :
    (State.tick { State.reset with dt := 3 }).dt = 2 ∧ (State.tick State.reset).dt = 0 ∧
    (State.tick { State.reset with dt := 5, halt := true }).dt = 5 := by decide
-- V-F3, V-F10
theorem test_fetch_at_top_and_at_odd_pc :
    (after ({ State.reset with pc := 0xFFE }.placeWord 0x6A55)).pc = 0x1000 ∧
    (after ({ State.reset with pc := 0x201 }.placeWord 0x6A55)).pc = 0x203 := by decide +kernel
-- R170: an accepted Load, and a refused one after a Step
theorem test_load :
    (State.reset.load [0x12, 0x34]).memByte 0x201 = 0x34 ∧
    ((after (boot 0x6A55)).load [0x12, 0x34]).memByte 0x200 = 0x6A := by decide +kernel

/-- The digits 1, 2, 3 of V7 at `I = pc` and `I = pc + 1`: what the next fetch reads (20_memory.md R63). -/
theorem test_store_into_running_word :
    let run := fun i => after (({ boot 0xF733 with i := i } : State).setV 7 0x7B)
    let word := fun t : State => wordOfBytes (t.memByte t.pc.toNat) (t.memByte (t.pc.toNat + 1))
    word (run 0x200) = 0x0300 ∧ word (run 0x201) = 0x0203 := by decide +kernel

/-- R42 with another font than the default: its bytes at 0x050 and 0x09F, zero around them. -/
theorem test_reset_seeds_the_given_font :
    let t := (after (boot 0x6A55)).resetOp (Vector.replicate 80 0x5A)
    [t.memByte 0x04F, t.memByte 0x050, t.memByte 0x09F, t.memByte 0x0A0, t.memByte 0x200] = [0, 0x5A, 0x5A, 0, 0] ∧
    t.started = false := by decide +kernel

/-- After a Reset a second program is accepted (R170). -/
theorem test_load_after_reset :
    (((after (boot 0x6A55)).resetOp defaultFont).load [0x12, 0x34]).memByte 0x201 = 0x34 := by decide +kernel

/-! ### The step of the model, its inputs free -/

/-- The state a step answers. -/
def answered (o : Host.Outcome State Fault Refusal) : State :=
  match o with
  | .next t => t
  | _ => State.reset

theorem test_step_runs_placed_word :
    (answered (step (State.reset.withFetchWord 16 0x6A55))).getV 0xA = 0x55 := by decide +kernel

/-! ### Witnesses: each statement's hypotheses are met together, at the bounds of each clause -/

/-- A running state inside a subroutine, with a stored byte. -/
def insideCall : State :=
  { (boot 0x6A55).setMem 0x300 0x07 with
    sp := 1, stack := State.reset.stack.set 0 0x206, pc := 0x200, i := 0xFFF, dt := 9, started := true }

theorem witness_insideCall_inv : Inv insideCall where
  sp_le := by decide
  i_le := by decide
  pc_le := by decide
  frames_le := by decide +kernel
  running_iff := by decide
  record_empty := by decide
  halted_started := by decide
  mem_wf := by decide +kernel

theorem witness_EncodedInstructionDecodesBack :
    wellFormed (.jp 0xFFF) = true ∧ wellFormed (.drw 0xF 0xF 15) = true ∧ wellFormed (.drw 0 0 0) = true := by decide

theorem witness_DecodedWordEncodesBack : decodeWord 0xDFFF = some (.drw 0xF 0xF 15) := by decide

/-- A fetch known by its evaluation. -/
theorem fetch_of_evaluation {answer : Except Word Word} {w : Word} (h : (answer.toOption == some w) = true) :
    answer = .ok w := by
  have found := eq_of_beq h
  cases answer with
  | error a => cases found
  | ok v => cases found; rfl

theorem witness_UnimplementedWordIsFatal :
    (boot 0x5000).halt = false ∧ (boot 0x5000).fetch = .ok 0x5000 ∧
    ∀ row ∈ opcodeRows, ¬ Selects row.1 row.2 0x5000 := by
  refine ⟨by decide, fetch_of_evaluation (by decide +kernel), ?_⟩
  · have none : opcodeRows.all (fun row => decide ((0x5000 : Word) &&& row.2 ≠ row.1)) = true := by decide
    intro row listed selected
    have other := List.all_eq_true.mp none row listed
    exact of_decide_eq_true other selected

theorem witness_StepRunsDecodedInstruction :
    (boot 0x6A55).halt = false ∧ (boot 0x6A55).pc.toNat + 1 < 4096 ∧
    decode [(boot 0x6A55).memByte (boot 0x6A55).pc.toNat, (boot 0x6A55).memByte ((boot 0x6A55).pc.toNat + 1)] =
      .ok (.ldImm 0xA 0x55, []) :=
  ⟨rfl, by decide, rfl⟩

/-- For every statement about the words of a row: the row's lowest and highest words select it. -/
theorem witness_rows_are_selected :
    opcodeRows.all (fun row => decide (row.1 &&& row.2 = row.1 ∧ (row.1 ||| ~~~row.2) &&& row.2 = row.1)) = true := by
  decide

theorem witness_running_states : State.reset.halt = false ∧ insideCall.halt = false := by decide

theorem witness_FetchRule :
    ({ State.reset with pc := 0xFFE } : State).pc.toNat ≤ 0xFFE ∧
    0xFFF ≤ ({ State.reset with pc := 0xFFF } : State).pc.toNat ∧
    0xFFF ≤ ({ State.reset with pc := 0x1000 } : State).pc.toNat := by decide

theorem witness_FatalStepIsPrecise :
    ∃ t, State.reset.halt = false ∧ stepWith 0 0 State.reset = .next t ∧ t.halt = true :=
  ⟨_, rfl, rfl, rfl⟩

theorem witness_CausesHaveTheirRaisers :
    ∃ t, Inv insideCall ∧ insideCall.halt = false ∧ stepWith 0 0 insideCall = .next t :=
  ⟨_, witness_insideCall_inv, rfl, rfl⟩

theorem witness_HaltedMachineIsAbsorbing :
    ({ State.reset with halt := true } : State).halt = true ∧ Op.reset ∉ [Op.tick, Op.present, Op.step 0 0] := by
  decide

theorem witness_RetRule :
    State.reset.sp = 0 ∧ 1 ≤ insideCall.sp.toNat ∧ insideCall.sp.toNat ≤ 16 ∧
    ({ State.reset with sp := 16 } : State).sp.toNat ≤ 16 := by decide

theorem witness_StackPointerAboveSixteen : 16 < ({ State.reset with sp := 17 } : State).sp.toNat := by decide

theorem witness_CallRule :
    ({ State.reset with sp := 15 } : State).sp.toNat < 16 ∧
    ({ State.reset with sp := 16 } : State).sp = 16 ∧ decodeWord 0x2300 = some (.call 0x300) := by decide

theorem witness_CallThenRetReturnsAfterCall :
    ∃ t, insideCall.sp.toNat < 16 ∧ exec (.call 0x300) insideCall = .next t ∧ SameStack t t :=
  ⟨_, by decide, rfl, rfl, fun _ => rfl⟩

theorem witness_FlagWritersLeaveZeroOrOne :
    ∃ t, (∃ x y n, Instr.drw 0 1 1 = .drw x y n) ∧ exec (.drw 0 1 1) State.reset = .next t ∧ t.halt = false :=
  ⟨_, ⟨0, 1, 1, rfl⟩, rfl, rfl⟩

theorem witness_LdBcdRule :
    ({ State.reset with i := 0xFFD } : State).i.toNat + 2 ≤ 4095 ∧ decodeWord 0xF733 = some (.ldB 7) ∧
    4095 < ({ State.reset with i := 0xFFE } : State).i.toNat + 2 ∧
    ({ State.reset with i := 0xFFE } : State).i.toNat ≤ 0xFFF := by decide

theorem witness_LdRegistersRule :
    ({ State.reset with i := 0xFF0 } : State).i.toNat + (0xF#4).toNat ≤ 4095 ∧
    decodeWord 0xFF65 = some (.ldRegs 0xF) ∧
    4095 < ({ State.reset with i := 0xFF1 } : State).i.toNat + (0xF#4).toNat ∧
    ({ State.reset with i := 0xFF1 } : State).i.toNat ≤ 0xFFF := by decide

/-- `LD B, V7` at 0x200, with `I` at a given address. -/
def storing (i : Word) : State := { boot 0xF733 with i := i }

/-- One address for each clause: the running word, its second byte, the next word, its second byte, beyond. -/
theorem witness_StoreIsSeenByNextFetch :
    ∀ i ∈ ([0x200, 0x201, 0x202, 0x203, 0x204, 0x1FF] : List Word),
      (storing i).halt = false ∧ (storing i).fetch = .ok 0xF733 ∧ decodeWord 0xF733 = some (.ldB 7) ∧
      (storing i).pc.toNat + 3 < 4096 ∧ (storing i).i.toNat + 2 ≤ 4095 := by
  intro i listed
  have fetched : (boot 0xF733).fetch = .ok 0xF733 := fetch_of_evaluation (by decide +kernel)
  refine ⟨rfl, fetched, by decide, (by decide : (0x200#16).toNat + 3 < 4096), ?_⟩
  have low := List.all_eq_true.mp
    (by decide : ([0x200, 0x201, 0x202, 0x203, 0x204, 0x1FF] : List Word).all (fun i => i.toNat ≤ 0x204) = true)
    i listed
  have bound : i.toNat ≤ 0x204 := of_decide_eq_true low
  show i.toNat + 2 ≤ 4095
  omega

theorem witness_DrawRule :
    ({ State.reset with i := 0xFF1 } : State).i.toNat + 15 - 1 ≤ 4095 ∧
    decodeWord 0xD01F = some (.drw 0 1 15) ∧ 4095 < ({ State.reset with i := 0xFF2 } : State).i.toNat + 15 - 1 ∧
    ({ State.reset with i := 0xFF2 } : State).i.toNat ≤ 0xFFF := by decide

theorem witness_DrawingTwiceRestoresTheScreen :
    (0#4 : Reg) ≠ 0xF#4 ∧ (1#4 : Reg) ≠ 0xF#4 ∧ 15 < 16 ∧ State.reset.i.toNat + 15 - 1 ≤ 4095 := by decide

theorem witness_key_rules :
    ((State.reset.setV 0 0xF).getV 0).toNat ≤ 15 ∧ 15 < ((State.reset.setV 0 0x10).getV 0).toNat ∧
    decodeWord 0xE09E = some (.skp 0) ∧ decodeWord 0xE0A1 = some (.sknp 0) := by decide +kernel

theorem witness_TickRule :
    insideCall.halt = false ∧ insideCall.dt ≠ 0 ∧ State.reset.dt = 0 := by decide

theorem witness_EachPieceOfStateHasItsWriters :
    ∃ t, exec (.ldImm 1 2) insideCall = .next t ∧ (∀ x y n, Instr.ldImm 1 2 ≠ .drw x y n) ∧
      (∀ x, Instr.ldImm 1 2 ≠ .ldB x) :=
  ⟨_, rfl, nofun, nofun⟩

theorem witness_RegistersWrittenAreTheTables :
    ∃ t, exec (.ldRegs 3) State.reset = .next t ∧ writesReg (.ldRegs 3) 4 = false ∧ writesReg (.ldRegs 3) 3 = true :=
  ⟨_, rfl, by decide, by decide⟩

theorem witness_OnlyThreeInstructionsAskTheOutside :
    ∃ t, (∀ x kk, Instr.ldB 7 ≠ .rnd x kk) ∧ (∀ x, Instr.ldB 7 ≠ .skp x) ∧ (∀ x, Instr.ldB 7 ≠ .sknp x) ∧
      exec (.ldB 7) (State.reset.latch 1 2) = .next t :=
  ⟨_, nofun, nofun, nofun, rfl⟩

theorem witness_SettledMachineStaysSettled : Settled (boot 0x1200) := ⟨rfl, 0x1200, rfl, rfl⟩

theorem witness_LoadRule :
    State.reset.started = false ∧ State.reset.halt = false ∧ (List.replicate 0xE00 (0 : Byte)).length ≤ 0xE00 ∧
    insideCall.started = true ∧ 0xE00 < (List.replicate 0xE01 (0 : Byte)).length :=
  ⟨rfl, rfl, List.length_replicate.le, rfl, by rw [List.length_replicate]; decide⟩

theorem witness_invariant_statements :
    ∃ t u, Inv insideCall ∧ step insideCall = .next t ∧ applyOps defaultFont [.tick, .step 0 0, .present] insideCall = .next u :=
  ⟨_, _, witness_insideCall_inv, rfl, rfl⟩

end Sys2Proof.Tests
end

section
/-! Proofs for the statements of 00_scope.md: the model's step as a run of the operations, and the writers of each
piece of state. -/

namespace Sys2Proof.Machine

/-! ### The step as a run of the operations (00_scope.md R8, R9) -/

/-- A Step of a running machine latches its inputs, then runs one cycle. -/
theorem stepWith_of_running {s : State} (h : s.halt = false) (keys : BitVec 16) (rnd : Byte) :
    stepWith keys rnd s = cycle (s.latch keys rnd) := by simp [stepWith, h]

/-- The index of the free inputs may be set on before the Ticks, since no Tick reads it. -/
theorem State.advanceWorld_eq_latch_ticks (s : State) :
    s.advanceWorld =
      (({ s with draws := s.draws + 1 } : State).ticks (Config.freeTicks s.draws)).latch
        (Config.freeKeys s.draws) (Config.freeRnd s.draws) := rfl

/-- Settles O7: the Ticks come to their closed form, and the Step that follows latches the same inputs. -/
theorem stepIsARunOfTheOperations : Obligations.StepIsARunOfTheOperations := by
  intro f s running
  have indexed : ({ s with draws := s.draws + 1 } : State).halt = false := running
  rw [applyOps_ticks, applyOps_singleton, ← State.ticks_eq_iterate_tick _ _ indexed, applyOp,
    stepWith_of_running ((State.ticks_halt _ _).trans indexed), step_of_running running,
    State.advanceWorld_eq_latch_ticks]

/-! ### The writers of each piece of state (00_scope.md R19) -/

/-- The next states that an instruction may answer, by the fields it may write: the fault record alone where it is
fatal; otherwise `PC` and the registers, and besides them the one piece of state that its row names. -/
inductive WritesOwnPieces (s : State) : Instr → State → Prop where
  | fatal (ins : Instr) (c : Cause) (addr word : Word) : WritesOwnPieces s ins (s.raise c addr word)
  | registers (ins : Instr) (v : Vector Byte 16) (pc : Word) : WritesOwnPieces s ins { s with v := v, pc := pc }
  | screen (x y : Reg) (n : Nat) (v : Vector Byte 16) (fb : Framebuffer) (pc : Word) :
      WritesOwnPieces s (.drw x y n) { s with v := v, fb := fb, pc := pc }
  | indexImmediate (nnn i pc : Word) : WritesOwnPieces s (.ldI nnn) { s with i := i, pc := pc }
  | indexFont (x : Reg) (i pc : Word) : WritesOwnPieces s (.ldF x) { s with i := i, pc := pc }
  | timer (x : Reg) (dt : Byte) (pc : Word) : WritesOwnPieces s (.ldDtVx x) { s with dt := dt, pc := pc }
  | pop (sp : Byte) (pc : Word) : WritesOwnPieces s .ret { s with sp := sp, pc := pc }
  | push (nnn : Word) (stack : Vector Word 16) (sp : Byte) (pc : Word) :
      WritesOwnPieces s (.call nnn) { s with stack := stack, sp := sp, pc := pc }
  | memory (x : Reg) (mem : List Host.Cell) (pc : Word) :
      WritesOwnPieces s (.ldB x) { s with mem := mem, pc := pc }

/-- A key test raises its fatal condition or moves `PC` alone. -/
theorem State.keyTest_writesOwnPieces (s : State) (x : Reg) (wanted : Bool) (ins : Instr) :
    WritesOwnPieces s ins (s.keyTest x wanted ins) := by
  unfold State.keyTest
  split
  · exact .fatal ..
  · exact .registers ..

/-- The inversion of `exec` by fields written. -/
theorem exec_writesOwnPieces {ins : Instr} {s t : State} (h : exec ins s = .next t) : WritesOwnPieces s ins t := by
  cases ins <;> simp only [exec] at h
  case ret =>
    unfold execRet at h
    split at h
    · cases h; exact .fatal ..
    · split at h
      · rename_i a popped hpop
        obtain ⟨_, _, rfl⟩ := State.pop?_eq_some.1 hpop
        cases h; exact .pop ..
      · cases h
  case call nnn =>
    unfold execCall at h
    split at h
    · rename_i pushed hpush
      obtain ⟨_, rfl⟩ := State.push?_eq_some.1 hpush
      cases h; exact .push ..
    · cases h; exact .fatal ..
  case ldI => cases h; exact .indexImmediate ..
  case ldF => cases h; exact .indexFont ..
  case ldDtVx => cases h; exact .timer ..
  case drw =>
    unfold execDrw at h
    split at h <;> cases h
    · exact .screen ..
    · exact .fatal ..
  case ldB =>
    unfold execLdB at h
    split at h <;> cases h
    · exact .memory ..
    · exact .fatal ..
  case ldRegs =>
    unfold execLdRegs at h
    split at h <;> cases h
    · rw [State.loadRegs_eq]; exact .registers ..
    · exact .fatal ..
  case skp => cases h; exact s.keyTest_writesOwnPieces ..
  case sknp => cases h; exact s.keyTest_writesOwnPieces ..
  -- The other arms answer the state with registers or `PC` written, and nothing else.
  all_goals cases h; exact .registers ..

namespace WritesOwnPieces

variable {ins : Instr} {s t : State}

theorem fb_eq (h : WritesOwnPieces s ins t) (hdrw : ∀ x y n, ins ≠ .drw x y n) : t.fb = s.fb := by
  cases h with
  | screen x y n => exact absurd rfl (hdrw x y n)
  | _ => rfl

theorem i_eq (h : WritesOwnPieces s ins t) (hldI : ∀ nnn, ins ≠ .ldI nnn) (hldF : ∀ x, ins ≠ .ldF x) :
    t.i = s.i := by
  cases h with
  | indexImmediate nnn => exact absurd rfl (hldI nnn)
  | indexFont x => exact absurd rfl (hldF x)
  | _ => rfl

theorem dt_eq (h : WritesOwnPieces s ins t) (hldDt : ∀ x, ins ≠ .ldDtVx x) : t.dt = s.dt := by
  cases h with
  | timer x => exact absurd rfl (hldDt x)
  | _ => rfl

theorem sameStack (h : WritesOwnPieces s ins t) (hret : ins ≠ .ret) (hcall : ∀ nnn, ins ≠ .call nnn) :
    SameStack s t := by
  cases h with
  | pop => exact absurd rfl hret
  | push nnn => exact absurd rfl (hcall nnn)
  | _ => exact sameStack_of_fields rfl rfl

theorem mem_eq (h : WritesOwnPieces s ins t) (hldB : ∀ x, ins ≠ .ldB x) : t.mem = s.mem := by
  cases h with
  | memory x => exact absurd rfl (hldB x)
  | _ => rfl

theorem sameInputs (h : WritesOwnPieces s ins t) : SameInputs s t := by
  cases h <;> exact ⟨rfl, rfl, rfl, rfl⟩

end WritesOwnPieces

/-- Settles O41, by the inversion of `exec`: each piece of state is kept by every form of answer but its writers'. -/
theorem eachPieceOfStateHasItsWriters : Obligations.EachPieceOfStateHasItsWriters := by
  intro ins s t h
  have writes := exec_writesOwnPieces h
  exact ⟨fun hdrw => sameScreen_of_fb (writes.fb_eq hdrw), writes.i_eq, writes.dt_eq, writes.sameStack,
    fun hldB => sameMem_of_mem (writes.mem_eq hldB), writes.sameInputs⟩

end Sys2Proof.Machine
end

section
/-! Proofs for the statements of 10_state.md: the values VF takes as a flag, the registers written, Reset, and the
invariant of the reachable states. -/

namespace Sys2Proof.Machine

/-! ### The decoder's operands (30_encoding.md R73) -/

/-- What the decoder makes of a word has operands that fit their fields. -/
theorem wellFormed_of_decodeWord {w : Word} {ins : Instr} (h : decodeWord w = some ins) : wellFormed ins = true := by
  have address : addressFits (fieldNNN w) = true :=
    decide_eq_true (by rw [toNat_fieldNNN]; exact Nat.mod_lt _ (by decide))
  have rows : rowsFit (fieldN w).toNat = true := decide_eq_true (fieldN w).isLt
  unfold decodeWord at h
  split at h
  -- The classes of JP, CALL and LD I.
  case h_2 | h_3 | h_9 => cases h; exact address
  -- The class of DRW.
  case h_11 => cases h; exact rows
  -- No other class has an address or a count of rows among its operands.
  all_goals
    repeat' split at h
    all_goals cases h
    all_goals rfl

/-! ### The instructions that branch, by what they answer -/

theorem exec_ret_cases {s t : State} (h : exec .ret s = .next t) :
    t = s.raise .stackUnderflow s.pc (encode .ret) ∨
      ∃ a popped, s.pop? = some (a, popped) ∧ t = popped.jump a := by
  simp only [exec, execRet] at h
  split at h
  · cases h; exact .inl rfl
  · split at h <;> cases h
    exact .inr ⟨_, _, ‹_›, rfl⟩

theorem exec_call_cases {nnn : Word} {s t : State} (h : exec (.call nnn) s = .next t) :
    t = s.raise .stackOverflow s.pc (encode (.call nnn)) ∨
      ∃ pushed, s.push? (s.pc + 2) = some pushed ∧ t = pushed.jump nnn := by
  simp only [exec, execCall] at h
  split at h <;> cases h
  · exact .inr ⟨_, ‹_›, rfl⟩
  · exact .inl rfl

theorem exec_ldB_cases {x : Reg} {s t : State} (h : exec (.ldB x) s = .next t) :
    t = s.raiseDataRange (.ldB x) ∨ s.accessFits 3 = true ∧ t = (s.storeDigits (s.getV x)).advance := by
  simp only [exec, execLdB] at h
  split at h <;> cases h
  · exact .inr ⟨‹_›, rfl⟩
  · exact .inl rfl

theorem exec_ldRegs_cases {x : Reg} {s t : State} (h : exec (.ldRegs x) s = .next t) :
    t = s.raiseDataRange (.ldRegs x) ∨
      s.accessFits (x.toNat + 1) = true ∧ t = (s.loadRegs (x.toNat + 1)).advance := by
  simp only [exec, execLdRegs] at h
  split at h <;> cases h
  · exact .inr ⟨‹_›, rfl⟩
  · exact .inl rfl

/-- A draw that completes leaves some screen, the flag of some collision, and the next `PC`. -/
theorem exec_drw_cases {x y : Reg} {n : Nat} {s t : State} (h : exec (.drw x y n) s = .next t) :
    t = s.raiseDataRange (.drw x y n) ∨
      ∃ fb collided, t = (({ s with fb := fb } : State).setV vf (collisionFlag collided)).advance := by
  simp only [exec, execDrw] at h
  split at h <;> cases h
  · exact .inr ⟨_, _, rfl⟩
  · exact .inl rfl

theorem State.keyTest_cases (s : State) (x : Reg) (wanted : Bool) (ins : Instr) :
    s.keyTest x wanted ins = s.raise .keyCodeRange s.pc (encode ins) ∨
      ∃ holds, s.keyTest x wanted ins = s.skipIf holds := by
  unfold State.keyTest
  split
  · exact .inl rfl
  · exact .inr ⟨_, rfl⟩

/-! ### VF as a flag (10_state.md R22, R41) -/

theorem flag_eq_zero_or_one (holds : Bool) : flag holds = 0 ∨ flag holds = 1 := by
  cases holds
  · exact .inl rfl
  · exact .inr rfl

@[simp] theorem State.getV_setVThenFlag_vf (s : State) (x : Reg) (result flagValue : Byte) :
    (s.setVThenFlag x result flagValue).getV vf = flagValue := State.getV_setV_same ..

/-- Settles O26: the last register each of the three writes is VF, and it writes a flag there. -/
theorem flagWritersLeaveZeroOrOne : Obligations.FlagWritersLeaveZeroOrOne := by
  rintro ins s t (⟨x, y, rfl⟩ | ⟨x, y, rfl⟩ | ⟨x, y, n, rfl⟩) h running
  · cases h
    exact State.getV_setVThenFlag_vf s .. ▸ flag_eq_zero_or_one _
  · cases h
    exact State.getV_setVThenFlag_vf s .. ▸ flag_eq_zero_or_one _
  · obtain rfl | ⟨fb, collided, rfl⟩ := exec_drw_cases h
    · cases running
    · exact State.getV_setV_same { s with fb := fb } .. ▸ flag_eq_zero_or_one _

/-! ### The registers written (10_state.md R23) -/

theorem State.getV_setVThenFlag_ne (s : State) {x z : Reg} (hx : z ≠ x) (hf : z ≠ vf) (result flagValue : Byte) :
    (s.setVThenFlag x result flagValue).getV z = s.getV z :=
  (State.getV_setV_ne _ hf _).trans (State.getV_setV_ne s hx _)

@[simp] theorem State.keyTest_v (s : State) (x : Reg) (wanted : Bool) (ins : Instr) :
    (s.keyTest x wanted ins).v = s.v := by
  obtain h | ⟨holds, h⟩ := s.keyTest_cases x wanted ins <;> rw [h]
  · rfl
  · rfl

/-- Settles O42, by the register each row writes; a row that writes none leaves the register file as it is. -/
theorem registersWrittenAreTheTables : Obligations.RegistersWrittenAreTheTables := by
  intro ins s t z h unwritten
  cases ins
  case ldImm | addImm | ldReg | andReg | rnd | ldVxDt =>
    cases h
    exact State.getV_setV_ne s (ne_of_beq_false unwritten) _
  case addReg | subReg =>
    cases h
    obtain ⟨hx, hf⟩ := Bool.or_eq_false_iff.1 unwritten
    exact s.getV_setVThenFlag_ne (ne_of_beq_false hx) (ne_of_beq_false hf) _ _
  case drw =>
    obtain rfl | ⟨fb, collided, rfl⟩ := exec_drw_cases h
    · rfl
    · exact State.getV_setV_ne { s with fb := fb } (ne_of_beq_false unwritten) _
  case ldRegs x =>
    obtain rfl | ⟨_, rfl⟩ := exec_ldRegs_cases h
    · rfl
    · have above : ¬ z.toNat < x.toNat + 1 := fun below => of_decide_eq_false unwritten (Nat.le_of_lt_succ below)
      exact (s.getV_loadRegs _ x.isLt z).trans (if_neg above)
  case ret =>
    obtain rfl | ⟨a, popped, hpop, rfl⟩ := exec_ret_cases h
    · rfl
    · obtain ⟨_, _, rfl⟩ := State.pop?_eq_some.1 hpop
      rfl
  case call =>
    obtain rfl | ⟨pushed, hpush, rfl⟩ := exec_call_cases h
    · rfl
    · obtain ⟨_, rfl⟩ := State.push?_eq_some.1 hpush
      rfl
  case ldB =>
    obtain rfl | ⟨_, rfl⟩ := exec_ldB_cases h
    · rfl
    · exact State.getV_congr (by simp) z
  case skp | sknp =>
    cases h
    exact State.getV_congr (State.keyTest_v ..) z
  case jp | se | sne | ldI | ldDtVx | ldF =>
    cases h
    rfl

/-! ### Reset (10_state.md R37, R42) -/

theorem State.getV_reset (x : Reg) : State.reset.getV x = 0 := by
  simp [State.getV, State.reset]

theorem State.pixel_reset (r : Fin 32) (c : Fin 64) : State.reset.pixel r c = false := by
  simp [State.pixel, Framebuffer.get, State.reset]

theorem State.stack_reset (k : Fin 16) : State.reset.stack[k.val]'k.isLt = 0 := by
  simp [State.reset]

theorem State.memByte_resetOp (f : Font) (s : State) (a : Nat) :
    (s.resetOp f).memByte a = (State.resetWith f).memByte a := rfl

/-- After a Load that is accepted, the program's bytes stand from `PROG_BASE` on (60_exceptions.md R170). -/
theorem State.memByte_load {s : State} {bytes : List Byte} (accepted : s.loadAccepted bytes = true) {j : Nat}
    (hj : j < bytes.length) : (s.load bytes).memByte (progBase + j) = bytes.getD j 0 := by
  rw [State.load, if_pos accepted, State.memByte_storeBytes, if_pos (by omega), Nat.add_sub_cancel_left]

/-- Reset opens Load's window (60_exceptions.md R170). -/
theorem State.loadAccepted_resetOp (f : Font) (s : State) {bytes : List Byte} (h : bytes.length ≤ progMax) :
    (s.resetOp f).loadAccepted bytes = true := by
  simp [State.loadAccepted, State.reset, h]

/-- Settles O45, field by field from what Reset leaves. -/
theorem resetRule : Obligations.ResetRule := by
  refine ⟨State.resetWith_defaultFont, fun f s => ⟨s.resetOp f, rfl, ?_⟩⟩
  have regs (x : Reg) : (s.resetOp f).getV x = 0 := (State.getV_congr (by simp) x).trans (State.getV_reset x)
  have slots (k : Fin 16) : (s.resetOp f).stack[k.val]'k.isLt = 0 := by
    simp only [State.resetOp_stack, State.stack_reset]
  have pixels (r : Fin 32) (c : Fin 64) : (s.resetOp f).pixel r c = false :=
    (State.pixel_congr (by simp) r c).trans (State.pixel_reset r c)
  have zeros (a : Nat) (h : a < 0x050 ∨ 0x09F < a) : (s.resetOp f).memByte a = 0 :=
    State.memByte_resetWith_zero f h
  have loads (bytes : List Byte) (short : bytes.length ≤ 0xE00) :
      Completes (applyOp f (.load bytes) (s.resetOp f)) fun u =>
        ∀ j : Nat, j < bytes.length → u.memByte (0x200 + j) = bytes.getD j 0 :=
    ⟨_, rfl, fun _ hj => State.memByte_load (s.loadAccepted_resetOp f short) hj⟩
  exact ⟨regs, s.resetOp_i f, s.resetOp_dt f, s.resetOp_pc f, s.resetOp_sp f, slots, pixels,
    State.memByte_resetWith_font f, zeros, s.resetOp_halt f, s.resetOp_fcause f, s.resetOp_faddr f,
    s.resetOp_fword f, s.resetOp_started f, rfl, loads⟩

/-! ### `I` and memory after an instruction (10_state.md R25, R36) -/

theorem toNat_fontAddress (v : Byte) : (fontAddress v).toNat = 0x050 + 5 * v.toNat := by
  have := v.isLt
  simp only [fontAddress, fontBase, BitVec.toNat_ofNat]
  omega

theorem exec_i_le {ins : Instr} {s t : State} (wf : wellFormed ins = true) (hi : s.i.toNat ≤ 0xFFF)
    (h : exec ins s = .next t) : t.i.toNat ≤ 0xFFF := by
  cases ins
  case ldI nnn =>
    cases h
    exact Nat.le_of_lt_succ (of_decide_eq_true wf)
  case ldF x =>
    cases h
    have := (s.getV x).isLt
    show (fontAddress (s.getV x)).toNat ≤ 0xFFF
    rw [toNat_fontAddress]
    omega
  all_goals
    rw [(exec_writesOwnPieces h).i_eq nofun nofun]
    exact hi

theorem exec_mem_wf {ins : Instr} {s t : State} (hm : Memory.wf s.mem = true) (h : exec ins s = .next t) :
    Memory.wf t.mem = true := by
  cases ins
  case ldB x =>
    obtain rfl | ⟨fits, rfl⟩ := exec_ldB_cases h
    · exact hm
    · have inBank : s.i.toNat + 2 < memSize := by simpa [State.accessFits_iff] using fits
      exact State.wf_storeDigits _ inBank hm
  all_goals
    rw [(exec_writesOwnPieces h).mem_eq nofun]
    exact hm

/-! ### The call stack after an instruction (10_state.md R30 to R32) -/

/-- What `Inv` says of the call stack: the pointer is in its range, and every live slot holds an address that a
`CALL` can push. -/
def StackBounded (s : State) : Prop :=
  s.sp.toNat ≤ 16 ∧ ∀ k : Fin 16, k.val < s.sp.toNat → (s.stack[k.val]'k.isLt).toNat ≤ 0x1000

theorem Inv.stackBounded {s : State} (inv : Inv s) : StackBounded s := ⟨inv.sp_le, inv.frames_le⟩

theorem StackBounded.of_sameStack {s t : State} (bounded : StackBounded s) (same : SameStack s t) :
    StackBounded t := by
  obtain ⟨sameSp, sameSlots⟩ := same
  simpa only [StackBounded, sameSp, sameSlots] using bounded

theorem StackBounded.push {s t : State} {a : Word} (bounded : StackBounded s) (ha : a.toNat ≤ 0x1000)
    (h : s.push? a = some t) : StackBounded t := by
  obtain ⟨free, rfl⟩ := State.push?_eq_some.1 h
  obtain ⟨_, frames⟩ := bounded
  have pushedSp : (s.sp + 1).toNat = s.sp.toNat + 1 := by bv_omega
  simp only [StackBounded, pushedSp]
  refine ⟨free, fun k live => ?_⟩
  by_cases top : s.sp.toNat = k.val
  · simpa [top] using ha
  · simpa [Vector.getElem_set_ne, top] using frames k (by omega)

/-- A pop leaves a bounded stack, and what it answers is the address a `CALL` pushed. -/
theorem StackBounded.pop {s t : State} {a : Word} (bounded : StackBounded s) (h : s.pop? = some (a, t)) :
    StackBounded t ∧ a.toNat ≤ 0x1000 := by
  obtain ⟨⟨used, hsp⟩, rfl, rfl⟩ := State.pop?_eq_some.1 h
  obtain ⟨_, frames⟩ := bounded
  have poppedSp : (s.sp - 1).toNat = s.sp.toNat - 1 := by bv_omega
  simp only [StackBounded, poppedSp]
  exact ⟨⟨by omega, fun k live => frames k (by omega)⟩,
    frames ⟨s.sp.toNat - 1, by omega⟩ (Nat.sub_one_lt_of_lt used)⟩

theorem exec_stackBounded {ins : Instr} {s t : State} (fetched : s.pc.toNat ≤ 0xFFE) (bounded : StackBounded s)
    (h : exec ins s = .next t) : StackBounded t := by
  cases ins
  case ret =>
    obtain rfl | ⟨a, popped, hpop, rfl⟩ := exec_ret_cases h
    · exact bounded
    · exact (bounded.pop hpop).1
  case call =>
    obtain rfl | ⟨pushed, hpush, rfl⟩ := exec_call_cases h
    · exact bounded
    · have returnAddress : (s.pc + 2).toNat ≤ 0x1000 := by bv_omega
      have afterPush : StackBounded pushed := bounded.push returnAddress hpush
      exact afterPush
  all_goals exact bounded.of_sameStack ((exec_writesOwnPieces h).sameStack nofun nofun)

/-! ### `PC` after an instruction (10_state.md R28, R29) -/

/-- Where the next instruction may stand: at `PC` of a fatal instruction, after it, beyond the instruction a skip
leaves out, at the address operand of a jump or call, or at the popped value. -/
inductive NextPc (s : State) : Instr → Word → Prop where
  | same (ins : Instr) : NextPc s ins s.pc
  | next (ins : Instr) : NextPc s ins (s.pc + 2)
  | skip (ins : Instr) : NextPc s ins (s.pc + 4)
  | jump (nnn : Word) : NextPc s (.jp nnn) nnn
  | call (nnn : Word) : NextPc s (.call nnn) nnn
  | ret {a : Word} {popped : State} (h : s.pop? = some (a, popped)) : NextPc s .ret a

theorem nextPc_skipIf (s : State) (ins : Instr) (holds : Bool) : NextPc s ins (s.skipIf holds).pc := by
  cases holds
  · exact .next ins
  · exact .skip ins

theorem nextPc_keyTest (s : State) (x : Reg) (wanted : Bool) (ins : Instr) :
    NextPc s ins (s.keyTest x wanted ins).pc := by
  obtain h | ⟨holds, h⟩ := s.keyTest_cases x wanted ins <;> rw [h]
  · exact .same ins
  · exact nextPc_skipIf s ins holds

/-- The inversion of `exec` by the next `PC`. -/
theorem exec_nextPc {ins : Instr} {s t : State} (h : exec ins s = .next t) : NextPc s ins t.pc := by
  cases ins
  case ret =>
    obtain rfl | ⟨a, popped, hpop, rfl⟩ := exec_ret_cases h
    · exact .same _
    · exact .ret hpop
  case jp => cases h; exact .jump _
  case call =>
    obtain rfl | ⟨pushed, _, rfl⟩ := exec_call_cases h
    · exact .same _
    · exact .call _
  case se | sne => cases h; exact nextPc_skipIf ..
  case skp | sknp => cases h; exact nextPc_keyTest ..
  case drw =>
    obtain rfl | ⟨fb, collided, rfl⟩ := exec_drw_cases h
    · exact .same _
    · exact .next _
  case ldB =>
    obtain rfl | ⟨_, rfl⟩ := exec_ldB_cases h
    · exact .same _
    · rw [State.advance_pc, State.storeDigits_pc]; exact .next _
  case ldRegs =>
    obtain rfl | ⟨_, rfl⟩ := exec_ldRegs_cases h
    · exact .same _
    · rw [State.advance_pc, State.loadRegs_pc]; exact .next _
  all_goals cases h; exact .next _

theorem exec_pc_le {ins : Instr} {s t : State} (wf : wellFormed ins = true) (fetched : s.pc.toNat ≤ 0xFFE)
    (bounded : StackBounded s) (h : exec ins s = .next t) : t.pc.toNat ≤ 0x1002 := by
  have target {nnn : Word} (fits : addressFits nnn = true) : nnn.toNat ≤ 0x1002 := by
    have : nnn.toNat < 0x1000 := of_decide_eq_true fits
    omega
  have next := exec_nextPc h
  generalize t.pc = pc at next ⊢
  cases next with
  | same => omega
  | next => bv_omega
  | skip => bv_omega
  | jump => exact target wf
  | call => exact target wf
  | ret hpop => exact Nat.le_trans (bounded.pop hpop).2 (by decide)

/-! ### The invariant, operation by operation (10_state.md R43) -/

/-- The invariant asks of memory its canonical form alone. -/
theorem Inv.withMem {s : State} (inv : Inv s) {m : List Host.Cell} (wf : Memory.wf m = true) :
    Inv { s with mem := m } := { inv with mem_wf := wf }

theorem Inv.latch {s : State} (inv : Inv s) (keys : BitVec 16) (rnd : Byte) : Inv (s.latch keys rnd) :=
  { inv with halted_started := fun _ => rfl }

theorem Inv.tick {s : State} (inv : Inv s) : Inv s.tick := { inv with }

theorem Inv.advanceWorld {s : State} (inv : Inv s) : Inv s.advanceWorld :=
  { inv with halted_started := fun _ => rfl }

/-- No fatal condition leaves `FCAUSE` empty (60_exceptions.md R150). -/
theorem Cause.code_ne_zero (c : Cause) : c.code ≠ 0 := by cases c <;> decide

/-- A fatal condition fills the record as it sets the halt latch; Load's window is closed by then. -/
theorem Inv.raise {s : State} (inv : Inv s) (started : s.started = true) (c : Cause) (addr word : Word) :
    Inv (s.raise c addr word) :=
  { inv with
    running_iff := iff_of_false nofun c.code_ne_zero
    record_empty := nofun
    halted_started := fun _ => started }

theorem inv_reset : Inv State.reset where
  sp_le := by decide
  i_le := by decide
  pc_le := by decide
  frames_le := nofun
  running_iff := by decide
  record_empty := fun _ => ⟨rfl, rfl⟩
  halted_started := nofun
  mem_wf := rfl

theorem inv_resetWith (f : Font) : Inv (State.resetWith f) := by
  rw [State.resetWith_eq]
  exact inv_reset.withMem (State.wf_resetWith f)

theorem inv_resetOp (f : Font) (s : State) : Inv (s.resetOp f) := { inv_resetWith f with }

theorem Inv.load {s : State} (inv : Inv s) (bytes : List Byte) : Inv (s.load bytes) := by
  unfold State.load
  split
  · rename_i accepted
    have fits : progBase + bytes.length ≤ memSize := by
      obtain ⟨_, short⟩ := (Bool.and_eq_true _ _).mp accepted
      exact Nat.add_le_add_left (of_decide_eq_true short) progBase
    rw [State.storeBytes_eq]
    exact inv.withMem (State.wf_storeBytes bytes fits inv.mem_wf)
  · exact inv

/-- An instruction that a word encodes and that stands inside the bank keeps the invariant. -/
theorem exec_keeps_inv {ins : Instr} {s t : State} (inv : Inv s) (started : s.started = true)
    (wf : wellFormed ins = true) (fetched : s.pc.toNat ≤ 0xFFE) (h : exec ins s = .next t) : Inv t := by
  obtain ⟨c, addr, rfl⟩ | ⟨halt, fcause, faddr, fword⟩ := exec_raised_or_kept_record h
  · exact inv.raise started c addr _
  · obtain ⟨sp_le, frames_le⟩ := exec_stackBounded fetched inv.stackBounded h
    obtain ⟨_, _, sameStarted, _⟩ := (exec_writesOwnPieces h).sameInputs
    exact {
      sp_le
      i_le := exec_i_le wf inv.i_le h
      pc_le := exec_pc_le wf fetched inv.stackBounded h
      frames_le
      running_iff := by rw [halt, fcause]; exact inv.running_iff
      record_empty := by rw [halt, faddr, fword]; exact inv.record_empty
      halted_started := fun _ => sameStarted.trans started
      mem_wf := exec_mem_wf inv.mem_wf h }

theorem cycle_keeps_inv {s t : State} (inv : Inv s) (started : s.started = true) (h : cycle s = .next t) : Inv t := by
  obtain ⟨a, _, hcycle⟩ | ⟨w, _, _, hcycle⟩ | ⟨w, ins, hfetch, hdecode, hcycle⟩ := cycle_cases s <;>
    rw [hcycle] at h
  · cases h; exact inv.raise started ..
  · cases h; exact inv.raise started ..
  · have fetched : s.pc.toNat ≤ 0xFFE := by
      have : s.pc.toNat + 1 < 4096 := (State.fetch_eq_ok.1 hfetch).1
      omega
    exact exec_keeps_inv inv started (wellFormed_of_decodeWord hdecode) fetched h

theorem stepWith_keeps_inv {s t : State} (inv : Inv s) {keys : BitVec 16} {rnd : Byte}
    (h : stepWith keys rnd s = .next t) : Inv t := by
  unfold stepWith at h
  split at h
  · cases h; exact inv
  · exact cycle_keeps_inv (inv.latch keys rnd) rfl h

theorem applyOp_keeps_inv {s t : State} (inv : Inv s) {f : Font} {op : Op} (h : applyOp f op s = .next t) : Inv t := by
  cases op with
  | reset => cases h; exact inv_resetOp f s
  | load bytes => cases h; exact inv.load bytes
  | step keys rnd => exact stepWith_keeps_inv inv h
  | tick => cases h; exact inv.tick
  | present => cases h; exact inv

/-- A sequence of operations that answers a next state does so through that of its first operation. -/
theorem applyOps_cons_eq_next {f : Font} {op : Op} {ops : List Op} {s t : State}
    (h : applyOps f (op :: ops) s = .next t) : ∃ u, applyOp f op s = .next u ∧ applyOps f ops u = .next t := by
  rw [applyOps] at h
  split at h
  · exact ⟨_, ‹_›, h⟩
  · cases h
  · cases h

/-- Settles O49. -/
theorem invariantHoldsAtReset : Obligations.InvariantHoldsAtReset := ⟨inv_reset, inv_resetWith⟩

/-- Settles O50: the world's move keeps the invariant, and so does the cycle after it. -/
theorem stepKeepsInvariant : Obligations.StepKeepsInvariant := by
  intro s t inv h
  cases halted : s.halt with
  | true =>
    rw [step_of_halt halted] at h
    cases h
    exact inv
  | false =>
    rw [step_of_running halted] at h
    exact cycle_keeps_inv inv.advanceWorld rfl h

/-- Settles O51, by induction on the sequence of operations. -/
theorem operationsKeepInvariant : Obligations.OperationsKeepInvariant := by
  intro f ops s t inv h
  induction ops generalizing s with
  | nil => cases h; exact inv
  | cons op ops ih =>
    obtain ⟨u, first, rest⟩ := applyOps_cons_eq_next h
    exact ih u (applyOp_keeps_inv inv first) rest

end Sys2Proof.Machine
end

section
/-! Proofs for the statements of 20_memory.md: the next fetch reads what the digit stores left. -/

namespace Sys2Proof.Machine

/-! ### One Step to the end of its execute stage (30_encoding.md R74) -/

/-- A Step of a running machine whose word decodes is that instruction, executed with the inputs latched. -/
theorem stepWith_of_decoded {s : State} {w : Word} {ins : Instr} (running : s.halt = false) (fetched : s.fetch = .ok w)
    (decoded : decodeWord w = some ins) (keys : BitVec 16) (rnd : Byte) :
    stepWith keys rnd s = exec ins (s.latch keys rnd) := by
  have latchedFetch : (s.latch keys rnd).fetch = .ok w := (State.fetch_congr rfl rfl).trans fetched
  simp only [stepWith_of_running running, cycle, latchedFetch, decoded]

/-- The fetch that follows an instruction which transfers no control. -/
theorem State.fetch_advance {s : State} (h : s.pc.toNat + 3 < memSize) :
    s.advance.fetch = .ok (wordOfBytes (s.memByte (s.pc.toNat + 2)) (s.memByte (s.pc.toNat + 3))) := by
  have nextPc : s.advance.pc.toNat = s.pc.toNat + 2 := by
    have inBank : s.pc.toNat + 3 < 4096 := h
    rw [State.advance_pc]
    bv_omega
  rw [State.fetch_ok (by omega), nextPc, State.memByte_congr s.advance_mem, State.memByte_congr s.advance_mem]

/-! ### The digits of `Fx33` and where they are stored (42_index_memory.md R122) -/

theorem toNat_hundreds (v : Byte) : (hundreds v).toNat = v.toNat / 100 := by
  have := v.isLt
  simp only [hundreds, BitVec.toNat_ofNat]
  omega

theorem toNat_tens (v : Byte) : (tens v).toNat = v.toNat / 10 % 10 := by
  simp only [tens, BitVec.toNat_ofNat]
  omega

theorem toNat_units (v : Byte) : (units v).toNat = v.toNat % 10 := by
  simp only [units, BitVec.toNat_ofNat]
  omega

section
variable (s : State) (v : Byte) {a : Nat}

theorem State.memByte_storeDigits_hundreds (h : a = s.i.toNat) : (s.storeDigits v).memByte a = hundreds v := by
  rw [State.memByte_storeDigits, if_neg (by omega), if_neg (by omega), if_pos h]

theorem State.memByte_storeDigits_tens (h : a = s.i.toNat + 1) : (s.storeDigits v).memByte a = tens v := by
  rw [State.memByte_storeDigits, if_neg (by omega), if_pos h]

theorem State.memByte_storeDigits_units (h : a = s.i.toNat + 2) : (s.storeDigits v).memByte a = units v := by
  rw [State.memByte_storeDigits, if_pos h]

theorem State.memByte_storeDigits_other (h : a < s.i.toNat ∨ s.i.toNat + 2 < a) :
    (s.storeDigits v).memByte a = s.memByte a := by
  rw [State.memByte_storeDigits, if_neg (by omega), if_neg (by omega), if_neg (by omega)]

end

/-- Where the three digits fit the bank, `LD B, Vx` stores them and advances. -/
theorem exec_ldB_of_fits (x : Reg) {s : State} (fits : s.i.toNat + 2 < memSize) :
    exec (.ldB x) s = .next (s.storeDigits (s.getV x)).advance :=
  if_pos ((s.accessFits_iff 3).2 (.inr fits))

/-! ### Stores into the instruction stream (20_memory.md R60, R63) -/

/-- Settles O31: the next fetch reads memory as the digit stores left it, and each of its two bytes is a digit or the
old byte by where `I` lies against `PC`. -/
theorem storeIsSeenByNextFetch : Obligations.StoreIsSeenByNextFetch := by
  intro keys rnd w x s running fetched decoded inBank fits
  have stepped : stepWith keys rnd s = .next ((s.storeDigits (s.getV x)).latch keys rnd).advance :=
    (stepWith_of_decoded running fetched decoded keys rnd).trans (exec_ldB_of_fits x (Nat.lt_succ_of_le fits))
  have nextFetch : ((s.storeDigits (s.getV x)).latch keys rnd).advance.fetch =
      .ok (wordOfBytes ((s.storeDigits (s.getV x)).memByte (s.pc.toNat + 2))
        ((s.storeDigits (s.getV x)).memByte (s.pc.toNat + 3))) := State.fetch_advance inBank
  refine ⟨_, stepped, rfl, _, nextFetch, ?_⟩
  rw [toNat_wordOfBytes]
  refine ⟨fun atPc => ?_, fun atPc1 => ?_, fun atPc2 => ?_, fun atPc3 => ?_, fun elsewhere => ?_⟩
  · rw [s.memByte_storeDigits_units _ (by omega), s.memByte_storeDigits_other _ (by omega), toNat_units]
  · rw [s.memByte_storeDigits_tens _ (by omega), s.memByte_storeDigits_units _ (by omega), toNat_tens, toNat_units]
  · rw [s.memByte_storeDigits_hundreds _ (by omega), s.memByte_storeDigits_tens _ (by omega), toNat_hundreds,
      toNat_tens]
  · rw [s.memByte_storeDigits_other _ (by omega), s.memByte_storeDigits_hundreds _ (by omega), toNat_hundreds]
  · rw [s.memByte_storeDigits_other _ (by omega), s.memByte_storeDigits_other _ (by omega)]

end Sys2Proof.Machine
end

section
/-! Proofs for the statements of 30_encoding.md: decoder and encoder against each other and against the table of matches
and masks, fetch, and the first stages of a Step. -/

namespace Sys2Proof

/-! ### A word and its fields (30_encoding.md R71, R72) -/

/-- A word of Format XK is known by its three fields. -/
theorem formatXK_eq_iff {op : BitVec 4} {x : Reg} {kk : Byte} {w : Word} :
    formatXK op x kk = w ↔ fieldOp w = op ∧ fieldX w = x ∧ fieldKK w = kk := by
  constructor
  · rintro rfl
    simp
  · rintro ⟨rfl, rfl, rfl⟩
    apply BitVec.eq_of_toNat_eq
    rw [toNat_formatXK, toNat_fieldOp, toNat_fieldX, toNat_fieldKK]
    omega

/-- A word of Format XYN is known by its four fields. -/
theorem formatXYN_eq_iff {op : BitVec 4} {x y : Reg} {n : BitVec 4} {w : Word} :
    formatXYN op x y n = w ↔ fieldOp w = op ∧ fieldX w = x ∧ fieldY w = y ∧ fieldN w = n := by
  constructor
  · rintro rfl
    simp
  · rintro ⟨rfl, rfl, rfl, rfl⟩
    apply BitVec.eq_of_toNat_eq
    rw [toNat_formatXYN, toNat_fieldOp, toNat_fieldX, toNat_fieldY, toNat_fieldN]
    omega

/-- A word is its class and its address field in Format A. -/
theorem formatA_fieldNNN {op : BitVec 4} {w : Word} (h : fieldOp w = op) : formatA op (fieldNNN w) = w := by
  subst h
  apply BitVec.eq_of_toNat_eq
  rw [toNat_formatA, toNat_fieldOp, toNat_fieldNNN]
  omega

/-! ### The decoder after the encoder (30_encoding.md R73, R78) -/

/-- The word of a well-formed instruction decodes to that instruction. -/
theorem decodeWord_encode {ins : Instr} (wf : wellFormed ins = true) : decodeWord (encode ins) = some ins :=
  match ins with
  | .ret => Laws.RoundTrip.ret wf
  | .jp nnn => Laws.RoundTrip.jp nnn wf
  | .call nnn => Laws.RoundTrip.call nnn wf
  | .se x kk => Laws.RoundTrip.se x kk wf
  | .sne x kk => Laws.RoundTrip.sne x kk wf
  | .ldImm x kk => Laws.RoundTrip.ldImm x kk wf
  | .addImm x kk => Laws.RoundTrip.addImm x kk wf
  | .ldReg x y => Laws.RoundTrip.ldReg x y wf
  | .andReg x y => Laws.RoundTrip.andReg x y wf
  | .addReg x y => Laws.RoundTrip.addReg x y wf
  | .subReg x y => Laws.RoundTrip.subReg x y wf
  | .ldI nnn => Laws.RoundTrip.ldI nnn wf
  | .rnd x kk => Laws.RoundTrip.rnd x kk wf
  | .drw x y n => Laws.RoundTrip.drw x y n wf
  | .skp x => Laws.RoundTrip.skp x wf
  | .sknp x => Laws.RoundTrip.sknp x wf
  | .ldVxDt x => Laws.RoundTrip.ldVxDt x wf
  | .ldDtVx x => Laws.RoundTrip.ldDtVx x wf
  | .ldF x => Laws.RoundTrip.ldF x wf
  | .ldB x => Laws.RoundTrip.ldB x wf
  | .ldRegs x => Laws.RoundTrip.ldRegs x wf

/-- Two bytes in front of others decode to what their word decodes to, and the others are left. -/
theorem decode_cons_cons_eq_ok {b0 b1 : Byte} {bytes rest : List Byte} {ins : Instr} :
    decode (b0 :: b1 :: bytes) = .ok (ins, rest) ↔ decodeWord (wordOfBytes b0 b1) = some ins ∧ bytes = rest := by
  simp only [decode]
  split <;> simp_all

/-- Settles O1: the two bytes make up the instruction's word again, and that word decodes to the instruction. -/
theorem encodedInstructionDecodesBack : Obligations.EncodedInstructionDecodesBack := by
  intro ins rest wf
  have decoded : decodeWord (wordOfBytes (byte0 (encode ins)) (byte1 (encode ins))) = some ins := by
    rw [wordOfBytes_byte0_byte1, decodeWord_encode wf]
  exact decode_cons_cons_eq_ok.2 ⟨decoded, rfl⟩

/-! ### The encoder after the decoder (30_encoding.md R76, R82) -/

/-- The word of what a word decodes to is that word: the literal digits that the decoder matched are those that the
encoder writes, and the operands are the other fields. -/
theorem encode_of_decodeWord {w : Word} {ins : Instr} (h : decodeWord w = some ins) : encode ins = w := by
  unfold decodeWord at h
  split at h
  -- The classes of Format A: JP, CALL and LD I.
  case h_2 _ op | h_3 _ op | h_9 _ op =>
    cases h
    exact formatA_fieldNNN (BitVec.eq_of_toNat_eq op)
  -- The classes of Format XK with no literal digit: SE, SNE, LD, ADD and RND.
  case h_4 _ op | h_5 _ op | h_6 _ op | h_7 _ op | h_10 _ op =>
    cases h
    exact formatXK_eq_iff.2 ⟨BitVec.eq_of_toNat_eq op, rfl, rfl⟩
  -- The class of DRW.
  case h_11 _ op =>
    cases h
    exact formatXYN_eq_iff.2 ⟨BitVec.eq_of_toNat_eq op, rfl, rfl, by simp⟩
  -- The class of RET, all of whose digits are literal.
  case h_1 =>
    split at h
    · cases h
      exact Eq.symm ‹_›
    · cases h
  -- The class of the register operations, where the low nibble is literal.
  case h_8 _ op =>
    repeat' split at h
    all_goals cases h
    all_goals exact formatXYN_eq_iff.2 ⟨BitVec.eq_of_toNat_eq op, rfl, rfl, ‹_›⟩
  -- The classes where the low byte is literal.
  case h_12 _ op | h_13 _ op =>
    repeat' split at h
    all_goals cases h
    all_goals exact formatXK_eq_iff.2 ⟨BitVec.eq_of_toNat_eq op, rfl, ‹_›⟩
  case h_14 => cases h

/-- Settles O2. -/
theorem decodedWordEncodesBack : Obligations.DecodedWordEncodesBack :=
  fun _ _ decoded => ⟨Machine.wellFormed_of_decodeWord decoded, encode_of_decodeWord decoded⟩

/-! ### Words from the patterns (95_test_vectors.md section 2) -/

/-- Settles O3: each word is laid out as its two bytes and decoded. -/
theorem sampleWordsDecode : Obligations.SampleWordsDecode := by
  refine ⟨?_, ?_, ?_, ?_, ?_, ?_, ?_, ?_, ?_, ?_⟩ <;> decide

/-! ### The rows of the opcode map (30_encoding.md R78) -/

/-- Two words are equal when their fields of Format XK are. -/
theorem eq_iff_fieldsXK {w w' : Word} :
    w = w' ↔ fieldOp w = fieldOp w' ∧ fieldX w = fieldX w' ∧ fieldKK w = fieldKK w' := by
  rw [← formatXK_eq_iff, formatXK_eq_iff.2 ⟨rfl, rfl, rfl⟩, eq_comm]

/-- Two words are equal when their fields of Format XYN are. -/
theorem eq_iff_fieldsXYN {w w' : Word} :
    w = w' ↔ fieldOp w = fieldOp w' ∧ fieldX w = fieldX w' ∧ fieldY w = fieldY w' ∧ fieldN w = fieldN w' := by
  rw [← formatXYN_eq_iff, formatXYN_eq_iff.2 ⟨rfl, rfl, rfl, rfl⟩, eq_comm]

@[simp] theorem fieldOp_and (w m : Word) : fieldOp (w &&& m) = fieldOp w &&& fieldOp m := BitVec.extractLsb'_and
@[simp] theorem fieldX_and (w m : Word) : fieldX (w &&& m) = fieldX w &&& fieldX m := BitVec.extractLsb'_and
@[simp] theorem fieldY_and (w m : Word) : fieldY (w &&& m) = fieldY w &&& fieldY m := BitVec.extractLsb'_and
@[simp] theorem fieldN_and (w m : Word) : fieldN (w &&& m) = fieldN w &&& fieldN m := BitVec.extractLsb'_and
@[simp] theorem fieldKK_and (w m : Word) : fieldKK (w &&& m) = fieldKK w &&& fieldKK m := BitVec.extractLsb'_and

namespace Machine

/-- The mask of RET, all bits, selects its word alone, which is of class 0. -/
theorem selects_ret {w : Word} : Selects 0x00EE#16 0xFFFF#16 w ↔ fieldOp w = 0 ∧ w = 0x00EE#16 := by
  have masked : w &&& 0xFFFF#16 = w := BitVec.and_allOnes
  rw [Selects, masked]
  exact ⟨fun h => ⟨h ▸ rfl, h⟩, And.right⟩

/-- A mask of the class selects the words of the class. -/
theorem selects_class {op : BitVec 4} {w : Word} : Selects (formatXK op 0 0) 0xF000#16 w ↔ fieldOp w = op := by
  have opMask : fieldOp 0xF000#16 = BitVec.allOnes 4 := rfl
  have xMask : fieldX 0xF000#16 = 0 := rfl
  have kkMask : fieldKK 0xF000#16 = 0 := rfl
  rw [Selects, eq_iff_fieldsXK]
  simp [opMask, xMask, kkMask, -BitVec.reduceAllOnes]

/-- A mask of class and low nibble selects the words of the class with that low nibble. -/
theorem selects_classNibble {op n : BitVec 4} {w : Word} :
    Selects (formatXYN op 0 0 n) 0xF00F#16 w ↔ fieldOp w = op ∧ fieldN w = n := by
  have opMask : fieldOp 0xF00F#16 = BitVec.allOnes 4 := rfl
  have xMask : fieldX 0xF00F#16 = 0 := rfl
  have yMask : fieldY 0xF00F#16 = 0 := rfl
  have nMask : fieldN 0xF00F#16 = BitVec.allOnes 4 := rfl
  rw [Selects, eq_iff_fieldsXYN]
  simp [opMask, xMask, yMask, nMask, -BitVec.reduceAllOnes]

/-- A mask of class and low byte selects the words of the class with that low byte. -/
theorem selects_classByte {op : BitVec 4} {kk : Byte} {w : Word} :
    Selects (formatXK op 0 kk) 0xF0FF#16 w ↔ fieldOp w = op ∧ fieldKK w = kk := by
  have opMask : fieldOp 0xF0FF#16 = BitVec.allOnes 4 := rfl
  have xMask : fieldX 0xF0FF#16 = 0 := rfl
  have kkMask : fieldKK 0xF0FF#16 = BitVec.allOnes 8 := rfl
  rw [Selects, eq_iff_fieldsXK]
  simp [opMask, xMask, kkMask, -BitVec.reduceAllOnes]

/-- The table's rows by the form of their mask. -/
theorem opcodeRows_eq :
    opcodeRows =
      [(0x00EE#16, 0xFFFF#16)] ++
      [0x1#4, 0x2#4, 0x3#4, 0x4#4, 0x6#4, 0x7#4].map (fun op => (formatXK op 0 0, 0xF000#16)) ++
      [0x0#4, 0x2#4, 0x4#4, 0x5#4].map (fun n => (formatXYN 0x8#4 0 0 n, 0xF00F#16)) ++
      [0xA#4, 0xC#4, 0xD#4].map (fun op => (formatXK op 0 0, 0xF000#16)) ++
      [0x9E#8, 0xA1#8].map (fun kk => (formatXK 0xE#4 0 kk, 0xF0FF#16)) ++
      [0x07#8, 0x15#8, 0x29#8, 0x33#8, 0x65#8].map (fun kk => (formatXK 0xF#4 0 kk, 0xF0FF#16)) := rfl

/-- A choice between an instruction and another answer is none when the choice falls on the other answer, none. -/
theorem ite_some_eq_none {p : Prop} [Decidable p] {ins : Instr} {other : Option Instr} :
    (if p then some ins else other) = none ↔ ¬ p ∧ other = none := by
  split <;> simp [*]

/-- No row selects a word exactly when it decodes to none: a word's class leaves the rows of that class, and these ask
for the literal digits that the decoder asks for. -/
theorem decodeWord_eq_none_iff {w : Word} :
    decodeWord w = none ↔ ∀ row ∈ opcodeRows, ¬ Selects row.1 row.2 w := by
  rw [opcodeRows_eq]
  simp only [List.forall_mem_append, List.forall_mem_map, List.forall_mem_singleton, selects_ret, selects_class,
    selects_classNibble, selects_classByte, ← BitVec.toNat_inj (x := fieldOp w)]
  unfold decodeWord
  split
  -- The classes with no row.
  case h_14 => simp_all
  all_goals simp [ite_some_eq_none, *]

/-! ### The stages of a Step (30_encoding.md R74, R75, R79) -/

/-- A step of a running machine whose word decodes is that instruction, executed after the outside world's move. -/
theorem step_of_decoded {s : State} {w : Word} {ins : Instr} (running : s.halt = false) (fetched : s.fetch = .ok w)
    (decoded : decodeWord w = some ins) : step s = exec ins s.advanceWorld := by
  have movedFetch : s.advanceWorld.fetch = .ok w := (State.fetch_congr rfl rfl).trans fetched
  simp only [step_of_running running, cycle, movedFetch, decoded]

/-- A Step of a running machine whose word does not decode takes `UnimplementedOpcode`. -/
theorem stepWith_of_undecoded {s : State} {w : Word} (running : s.halt = false) (fetched : s.fetch = .ok w)
    (undecoded : decodeWord w = none) (keys : BitVec 16) (rnd : Byte) :
    stepWith keys rnd s = .next ((s.latch keys rnd).raise .unimplementedOpcode s.pc w) := by
  have latchedFetch : (s.latch keys rnd).fetch = .ok w := (State.fetch_congr rfl rfl).trans fetched
  simp only [stepWith_of_running running, cycle, latchedFetch, undecoded, State.latch_pc]

/-- A Step of a running machine whose fetch leaves the bank takes `OutOfRange` with the address that fetch answers. -/
theorem stepWith_of_unfetched {s : State} {a : Word} (running : s.halt = false) (unfetched : s.fetch = .error a)
    (keys : BitVec 16) (rnd : Byte) :
    stepWith keys rnd s = .next ((s.latch keys rnd).raise .outOfRange a 0) := by
  have latchedFetch : (s.latch keys rnd).fetch = .error a := (State.fetch_congr rfl rfl).trans unfetched
  simp only [stepWith_of_running running, cycle, latchedFetch]

/-- Settles O4. -/
theorem unimplementedWordIsFatal : Obligations.UnimplementedWordIsFatal := by
  refine ⟨fun _ => decodeWord_eq_none_iff, fun keys rnd s w running fetched unselected => ?_⟩
  exact ⟨_, stepWith_of_undecoded running fetched (decodeWord_eq_none_iff.2 unselected) keys rnd,
    tookFatal_raise _ .unimplementedOpcode s.pc w⟩

/-- Settles O5: fetch answers the word of the two bytes at the pc, which is the word that `decode` looks up. -/
theorem stepRunsDecodedInstruction : Obligations.StepRunsDecodedInstruction := by
  intro s ins running inBank decodedBytes
  have fetched := State.fetch_ok inBank
  obtain ⟨decoded, -⟩ := decode_cons_cons_eq_ok.1 decodedBytes
  exact ⟨step_of_decoded running fetched decoded, stepWith_of_decoded running fetched decoded⟩

/-- Beyond 0xFFE fetch answers the lowest address of its pair that lies outside the bank. -/
theorem State.fetch_beyond {s : State} (beyond : 0xFFF ≤ s.pc.toNat) :
    s.fetch = .error (if s.pc = 0xFFF then 0x1000 else s.pc) := by
  by_cases last : s.pc = 0xFFF
  · rw [if_pos last, State.fetch_second (by rw [last]; rfl)]
  · have above : memSize ≤ s.pc.toNat := by
      show 4096 ≤ s.pc.toNat
      bv_omega
    rw [if_neg last, State.fetch_first above]

/-- Settles O8. -/
theorem fetchRule : Obligations.FetchRule := by
  refine ⟨fun s inBank => ?_, fun keys rnd s running beyond => ?_⟩
  · exact ⟨_, State.fetch_ok (Nat.lt_of_le_of_lt (Nat.succ_le_succ inBank) (by decide)), toNat_wordOfBytes _ _⟩
  · exact ⟨_, stepWith_of_unfetched running (State.fetch_beyond beyond) keys rnd,
      tookFatal_raise _ .outOfRange _ 0⟩

end Machine

end Sys2Proof
end

section
/-! Proofs for the statements of 40_control_flow.md: the words of the five instructions, what each leaves unchanged, and
calls against returns. -/

namespace Sys2Proof.Machine

/-! ### What an instruction that moves `PC`, or `PC` and the call stack, leaves unchanged -/

theorem sameAllButPc (s : State) (pc : Word) :
    SameRegs s { s with pc := pc } ∧ SameIndexTimer s { s with pc := pc } ∧ SameOutside s { s with pc := pc } :=
  ⟨sameRegs_of_v rfl, ⟨rfl, rfl⟩, sameOutside_of_fields rfl rfl rfl rfl ⟨rfl, rfl, rfl, rfl⟩ ⟨rfl, rfl, rfl, rfl⟩⟩

theorem sameAllButStackAndPc {s t : State}
    (h : t = { s with stack := t.stack, sp := t.sp, pc := t.pc }) :
    SameRegs s t ∧ SameIndexTimer s t ∧ SameMem s t ∧ SameScreen s t ∧ SameRecord s t ∧ SameInputs s t := by
  rw [h]
  exact ⟨sameRegs_of_v rfl, ⟨rfl, rfl⟩, sameMem_of_mem rfl, sameScreen_of_fb rfl, ⟨rfl, rfl, rfl, rfl⟩,
    ⟨rfl, rfl, rfl, rfl⟩⟩

/-! ### The jump (40_control_flow.md R101) -/

theorem decodeWord_of_selects_jp {w : Word} (selected : Selects 0x1000 0xF000 w) :
    decodeWord w = some (.jp (fieldNNN w)) := by
  have op : fieldOp w = 1 := selects_class.1 selected
  simp [decodeWord, op]

/-- Settles O14. -/
theorem jpRule : Obligations.JpRule :=
  ⟨fun _ => decodeWord_of_selects_jp, fun nnn s => ⟨s.jump nnn, rfl, rfl, sameAllButPc s nnn⟩⟩

/-! ### The skips (40_control_flow.md R103, R104) -/

theorem decodeWord_of_selects_se {w : Word} (selected : Selects 0x3000 0xF000 w) :
    decodeWord w = some (.se (fieldX w) (fieldKK w)) := by
  have op : fieldOp w = 3 := selects_class.1 selected
  simp [decodeWord, op]

theorem decodeWord_of_selects_sne {w : Word} (selected : Selects 0x4000 0xF000 w) :
    decodeWord w = some (.sne (fieldX w) (fieldKK w)) := by
  have op : fieldOp w = 4 := selects_class.1 selected
  simp [decodeWord, op]

theorem State.skipIf_pc_of_true (s : State) {holds : Bool} (h : holds = true) : (s.skipIf holds).pc = s.pc + 4 := by
  simp [h]

theorem State.skipIf_pc_of_false (s : State) {holds : Bool} (h : holds = false) :
    (s.skipIf holds).pc = s.pc + 2 := by
  simp [h]

/-- A skip is seen in the next `PC`. -/
theorem State.skipIf_pc_eq_skipped_iff (s : State) {holds : Bool} :
    (s.skipIf holds).pc = s.pc + 4 ↔ holds = true := by
  cases holds <;> simp

/-- Settles O17. -/
theorem seRule : Obligations.SeRule := by
  refine ⟨fun _ => decodeWord_of_selects_se, fun x kk s => ⟨s.skipIf (s.getV x == kk), rfl, ?_, ?_, sameAllButPc s _⟩⟩
  · intro equal
    exact s.skipIf_pc_of_true (beq_iff_eq.2 (BitVec.eq_of_toNat_eq equal))
  · intro differs
    exact s.skipIf_pc_of_false (beq_eq_false_iff_ne.2 fun equal => differs (congrArg _ equal))

/-- Settles O18: the condition of SNE is the negation of that of SE. -/
theorem sneRule : Obligations.SneRule := by
  refine ⟨fun _ => decodeWord_of_selects_sne, fun x kk s => ⟨s.skipIf (s.getV x != kk), rfl, ?_⟩⟩
  have skips (differs : (s.getV x).toNat ≠ kk.toNat) : (s.skipIf (s.getV x != kk)).pc = s.pc + 4 :=
    s.skipIf_pc_of_true (bne_iff_ne.2 fun equal => differs (congrArg _ equal))
  have advances (equal : (s.getV x).toNat = kk.toNat) : (s.skipIf (s.getV x != kk)).pc = s.pc + 2 :=
    s.skipIf_pc_of_false (bne_eq_false_iff_eq.2 (BitVec.eq_of_toNat_eq equal))
  have oneSkips : (s.skipIf (s.getV x != kk)).pc = s.pc + 4 ↔ ¬ (s.skipIf (s.getV x == kk)).pc = s.pc + 4 := by
    rw [s.skipIf_pc_eq_skipped_iff, s.skipIf_pc_eq_skipped_iff, bne_iff_ne, beq_iff_eq]
  obtain ⟨regs, indexTimer, outside⟩ := sameAllButPc s (s.skipIf (s.getV x != kk)).pc
  exact ⟨skips, advances, regs, indexTimer, outside, s.skipIf (s.getV x == kk), rfl, oneSkips⟩

/-! ### Push and pop, slot by slot (10_state.md R32) -/

theorem State.toNat_sp_of_push? {s t : State} {a : Word} (h : s.push? a = some t) :
    t.sp.toNat = s.sp.toNat + 1 := by
  obtain ⟨free, rfl⟩ := State.push?_eq_some.1 h
  show (s.sp + 1).toNat = s.sp.toNat + 1
  bv_omega

/-- A push writes the slot at the old `SP` and no other. -/
theorem State.stack_of_push? {s t : State} {a : Word} (h : s.push? a = some t) (k : Fin 16) :
    t.stack[k.val]'k.isLt = if k.val = s.sp.toNat then a else s.stack[k.val]'k.isLt := by
  obtain ⟨_, rfl⟩ := State.push?_eq_some.1 h
  simp only [Vector.getElem_set, eq_comm]

/-- A pop reads the call stack alone: from another state with the same one it answers the same value. -/
theorem State.pop?_of_sameStack {s t popped : State} {a : Word} (same : SameStack s t)
    (h : s.pop? = some (a, popped)) : t.pop? = some (a, { t with sp := popped.sp }) := by
  obtain ⟨sameSp, sameSlots⟩ := same
  obtain ⟨used, rfl, rfl⟩ := State.pop?_eq_some.1 h
  refine State.pop?_eq_some.2 ⟨sameSp ▸ used, ?_, by rw [sameSp]⟩
  simp only [sameSp]
  exact (sameSlots ⟨s.sp.toNat - 1, by omega⟩).symm

/-! ### Call and return (40_control_flow.md R100, R102) -/

theorem decodeWord_of_selects_call {w : Word} (selected : Selects 0x2000 0xF000 w) :
    decodeWord w = some (.call (fieldNNN w)) := by
  have op : fieldOp w = 2 := selects_class.1 selected
  simp [decodeWord, op]

theorem exec_call_of_push? {s pushed : State} (nnn : Word) (h : s.push? (s.pc + 2) = some pushed) :
    exec (.call nnn) s = .next (pushed.jump nnn) := by
  simp only [exec, execCall, h]

theorem exec_call_of_full {s : State} (nnn : Word) (full : 16 ≤ s.sp.toNat) :
    exec (.call nnn) s = .next (s.raise .stackOverflow s.pc (encode (.call nnn))) := by
  simp only [exec, execCall, State.push?_eq_none.2 full]

theorem exec_ret_of_empty {s : State} (empty : s.sp = 0) :
    exec .ret s = .next (s.raise .stackUnderflow s.pc 0x00EE) :=
  if_pos empty

theorem exec_ret_of_pop? {s popped : State} {a : Word} (h : s.pop? = some (a, popped)) :
    exec .ret s = .next (popped.jump a) := by
  obtain ⟨⟨used, _⟩, _⟩ := State.pop?_eq_some.1 h
  have nonempty : ¬ s.sp = 0 := by bv_omega
  simp only [exec, execRet, if_neg nonempty, h]

/-- Settles O16: the RET pops from `u` what the CALL pushed, since `u` has the stack that the CALL left. -/
theorem callThenRetReturnsAfterCall : Obligations.CallThenRetReturnsAfterCall := by
  intro nnn s t u free called same
  obtain ⟨pushed, hpush⟩ : ∃ pushed, s.push? (s.pc + 2) = some pushed := ⟨_, State.push?_eq_some.2 ⟨free, rfl⟩⟩
  rw [exec_call_of_push? nnn hpush] at called
  cases called
  have popped := State.pop?_of_sameStack (s := pushed) same (State.pop?_of_push? hpush)
  refine ⟨_, exec_ret_of_pop? popped, rfl, rfl, fun k below => ?_⟩
  obtain ⟨_, sameSlots⟩ := same
  calc u.stack[k.val]'k.isLt
    _ = pushed.stack[k.val]'k.isLt := sameSlots k
    _ = s.stack[k.val]'k.isLt := by rw [State.stack_of_push? hpush, if_neg (by omega)]

/-- Settles O12. -/
theorem retRule : Obligations.RetRule := by
  refine ⟨fun w selected => ?_, fun s empty => ?_, fun s used inRange => ?_⟩
  · obtain ⟨_, rfl⟩ := selects_ret.1 selected
    rfl
  · exact ⟨_, exec_ret_of_empty empty, tookFatal_raise s .stackUnderflow s.pc 0x00EE⟩
  · have popped := State.pop?_eq_some.2 ⟨⟨used, inRange⟩, rfl, rfl⟩
    refine ⟨_, exec_ret_of_pop? popped, ?_, fun k top => ?_, fun _ => rfl, sameAllButStackAndPc rfl⟩
    · show (s.sp - 1).toNat + 1 = s.sp.toNat
      bv_omega
    · simp only [State.jump_pc, ← top, Nat.add_sub_cancel]

/-- Settles O15: the recorded word is the one the CALL was decoded from, since a decoded word encodes back. -/
theorem callRule : Obligations.CallRule := by
  refine ⟨fun _ => decodeWord_of_selects_call, fun nnn s free => ?_, fun w nnn s decoded full => ?_⟩
  · have push := State.push?_eq_some (a := s.pc + 2).2 ⟨free, rfl⟩
    have pushedSp := State.toNat_sp_of_push? push
    have pushedSlots := State.stack_of_push? push
    exact ⟨_, exec_call_of_push? nnn push, pushedSp, rfl, pushedSlots, sameAllButStackAndPc rfl⟩
  · rw [← encode_of_decodeWord decoded]
    exact ⟨_, exec_call_of_full nnn (full ▸ Nat.le_refl 16), tookFatal_raise s .stackOverflow s.pc _⟩

end Sys2Proof.Machine
end

section
/-! Proofs for the statements of 41_register_arith.md: the words of the seven instructions, and what a write of one
register, or of one register and VF, leaves unchanged. -/

namespace Sys2Proof.Machine

/-! ### The words of a row (30_encoding.md R72, R78) -/

/-- A word that a class row selects is the class and the word's own fields in Format XK. -/
theorem formatXK_of_selects {op : BitVec 4} {w : Word} (selected : Selects (formatXK op 0 0) 0xF000#16 w) :
    formatXK op (fieldX w) (fieldKK w) = w :=
  formatXK_eq_iff.2 ⟨selects_class.1 selected, rfl, rfl⟩

/-- A word that a row of class and low nibble selects is these and the word's own fields in Format XYN. -/
theorem formatXYN_of_selects {op n : BitVec 4} {w : Word} (selected : Selects (formatXYN op 0 0 n) 0xF00F#16 w) :
    formatXYN op (fieldX w) (fieldY w) n = w := by
  obtain ⟨op_eq, n_eq⟩ := selects_classNibble.1 selected
  exact formatXYN_eq_iff.2 ⟨op_eq, rfl, rfl, n_eq⟩

theorem decodeWord_of_encode_eq {ins : Instr} {w : Word} (wf : wellFormed ins = true) (h : encode ins = w) :
    decodeWord w = some ins :=
  h ▸ decodeWord_encode wf

/-! ### What an instruction that writes registers and moves `PC` leaves unchanged -/

theorem sameAllButRegsAndPc {s t : State} (h : t = { s with v := t.v, pc := t.pc }) :
    SameIndexTimer s t ∧ SameOutside s t := by
  rw [h]
  exact ⟨⟨rfl, rfl⟩, sameOutside_of_fields rfl rfl rfl rfl ⟨rfl, rfl, rfl, rfl⟩ ⟨rfl, rfl, rfl, rfl⟩⟩

/-- The frame of an instruction that writes the one register `V[x]`. -/
theorem frame_setV_advance (s : State) (x : Reg) (b : Byte) :
    SameRegsBut x s (s.setV x b).advance ∧ (s.setV x b).advance.pc = s.pc + 2 ∧
    SameIndexTimer s (s.setV x b).advance ∧ SameOutside s (s.setV x b).advance :=
  ⟨sameRegsBut_setV s x b, rfl, sameAllButRegsAndPc rfl⟩

/-- The frame of an instruction that writes `V[x]` and a flag. -/
theorem frame_setVThenFlag_advance (s : State) (x : Reg) (result flagValue : Byte) :
    (∀ z : Reg, z ≠ x → z ≠ vf → (s.setVThenFlag x result flagValue).advance.getV z = s.getV z) ∧
    (s.setVThenFlag x result flagValue).advance.pc = s.pc + 2 ∧
    SameIndexTimer s (s.setVThenFlag x result flagValue).advance ∧
    SameOutside s (s.setVThenFlag x result flagValue).advance :=
  ⟨fun _ notX notVf => s.getV_setVThenFlag_ne notX notVf .., rfl, sameAllButRegsAndPc rfl⟩

/-! ### One register, no flag (41_register_arith.md R110 to R113, R116) -/

/-- Settles O19. -/
theorem ldImmediateRule : Obligations.LdImmediateRule :=
  ⟨fun _ selected => decodeWord_of_encode_eq rfl (formatXK_of_selects selected),
    fun x kk s => ⟨_, rfl, s.getV_setV_same x kk, frame_setV_advance s x kk⟩⟩

/-- Settles O20. -/
theorem addImmediateRule : Obligations.AddImmediateRule := by
  refine ⟨fun _ selected => decodeWord_of_encode_eq rfl (formatXK_of_selects selected),
    fun x kk s => ⟨_, rfl, ?_, frame_setV_advance s x _⟩⟩
  calc ((s.setV x (s.getV x + kk)).getV x).toNat
    _ = (s.getV x + kk).toNat := by rw [State.getV_setV_same]
    _ = ((s.getV x).toNat + kk.toNat) % 256 := BitVec.toNat_add ..

/-- Settles O21. -/
theorem ldRegisterRule : Obligations.LdRegisterRule :=
  ⟨fun _ selected => decodeWord_of_encode_eq rfl (formatXYN_of_selects selected),
    fun x y s => ⟨_, rfl, s.getV_setV_same x (s.getV y), frame_setV_advance s x (s.getV y)⟩⟩

/-- A register just written with a bitwise and, bit by bit. -/
theorem State.getLsbD_getV_setV_and (s : State) (x : Reg) (a b : Byte) (bit : Nat) :
    ((s.setV x (a &&& b)).getV x).getLsbD bit = (a.getLsbD bit && b.getLsbD bit) := by
  rw [State.getV_setV_same, BitVec.getLsbD_and]

/-- Settles O22. -/
theorem andRule : Obligations.AndRule :=
  ⟨fun _ selected => decodeWord_of_encode_eq rfl (formatXYN_of_selects selected),
    fun x y s => ⟨_, rfl, fun bit _ => s.getLsbD_getV_setV_and x (s.getV x) (s.getV y) bit, frame_setV_advance s x _⟩⟩

/-- Settles O25. -/
theorem rndRule : Obligations.RndRule :=
  ⟨fun _ selected => decodeWord_of_encode_eq rfl (formatXK_of_selects selected),
    fun x kk s => ⟨_, rfl, fun bit _ => s.getLsbD_getV_setV_and x s.rnd kk bit, frame_setV_advance s x _⟩⟩

/-! ### A result and a flag (41_register_arith.md R114, R115, R118) -/

theorem State.getV_setVThenFlag_result (s : State) {x : Reg} (h : x ≠ vf) (result flagValue : Byte) :
    (s.setVThenFlag x result flagValue).getV x = result :=
  (State.getV_setV_ne _ h _).trans (s.getV_setV_same x result)

theorem toNat_flag (p : Prop) [Decidable p] : (flag (decide p)).toNat = if p then 1 else 0 := by
  by_cases h : p <;> simp [flag, h]

theorem toNat_carryFlag (a b : Byte) : (carryFlag a b).toNat = if a.toNat + b.toNat > 255 then 1 else 0 :=
  toNat_flag _

theorem toNat_noBorrowFlag (a b : Byte) : (noBorrowFlag a b).toNat = if b.toNat ≤ a.toNat then 1 else 0 :=
  toNat_flag _

/-- A difference of bytes, with 256 borrowed where there is a borrow. -/
theorem toNat_sub_byte (a b : Byte) :
    (a - b).toNat = if b.toNat ≤ a.toNat then a.toNat - b.toNat else a.toNat + 256 - b.toNat := by
  split <;> bv_omega

/-- Settles O23: with `x = F` the flag, written last, is what the register reads. -/
theorem addRule : Obligations.AddRule := by
  refine ⟨fun _ selected => decodeWord_of_encode_eq rfl (formatXYN_of_selects selected),
    fun x y s => ⟨_, rfl, fun notVf => ?_, ?_, frame_setVThenFlag_advance s x _ _⟩⟩
  · exact (congrArg BitVec.toNat (s.getV_setVThenFlag_result notVf ..)).trans (BitVec.toNat_add ..)
  · exact (congrArg BitVec.toNat (s.getV_setVThenFlag_vf x ..)).trans (toNat_carryFlag ..)

/-- Settles O24: with `x = F` the flag, written last, is what the register reads. -/
theorem subRule : Obligations.SubRule := by
  refine ⟨fun _ selected => decodeWord_of_encode_eq rfl (formatXYN_of_selects selected),
    fun x y s => ⟨_, rfl, fun notVf => ?_, ?_, frame_setVThenFlag_advance s x _ _⟩⟩
  · exact (congrArg BitVec.toNat (s.getV_setVThenFlag_result notVf ..)).trans (toNat_sub_byte ..)
  · exact (congrArg BitVec.toNat (s.getV_setVThenFlag_vf x ..)).trans (toNat_noBorrowFlag ..)

end Sys2Proof.Machine
end

section
/-! Proofs for the statements of 42_index_memory.md: the words of the four instructions, an access to the bytes from `I`
on inside the bank and beyond it, and what each instruction leaves unchanged. -/

namespace Sys2Proof.Machine

/-! ### The words of a row (30_encoding.md R72, R78) -/

/-- A word that a row of class and low byte selects is these and the word's own `x` in Format XK. -/
theorem formatXK_of_selects_classByte {op : BitVec 4} {kk : Byte} {w : Word}
    (selected : Selects (formatXK op 0 kk) 0xF0FF#16 w) : formatXK op (fieldX w) kk = w := by
  obtain ⟨op_eq, kk_eq⟩ := selects_classByte.1 selected
  exact formatXK_eq_iff.2 ⟨op_eq, rfl, kk_eq⟩

theorem decodeWord_of_selects_ldI {w : Word} (selected : Selects 0xA000 0xF000 w) :
    decodeWord w = some (.ldI (fieldNNN w)) := by
  have op : fieldOp w = 0xA := selects_class.1 selected
  simp [decodeWord, op]

/-! ### Writes of `I` (42_index_memory.md R120, R121) -/

/-- The frame of an instruction that writes `I` alone. -/
theorem frame_setI_advance (s : State) (a : Word) :
    (s.setI a).advance.pc = s.pc + 2 ∧ SameRegs s (s.setI a).advance ∧ (s.setI a).advance.dt = s.dt ∧
    SameOutside s (s.setI a).advance :=
  ⟨rfl, sameRegs_of_v rfl, rfl, sameOutside_of_fields rfl rfl rfl rfl ⟨rfl, rfl, rfl, rfl⟩ ⟨rfl, rfl, rfl, rfl⟩⟩

/-- Settles O27. -/
theorem ldIRule : Obligations.LdIRule :=
  ⟨fun _ => decodeWord_of_selects_ldI, fun nnn s => ⟨_, rfl, rfl, frame_setI_advance s nnn⟩⟩

/-- Settles O28: the font address, at most 0x050 + 5 × 255, is not reduced by its 16 bits. -/
theorem ldFontRule : Obligations.LdFontRule :=
  ⟨fun _ selected => decodeWord_of_encode_eq rfl (formatXK_of_selects_classByte selected),
    fun x s => ⟨_, rfl, toNat_fontAddress (s.getV x), frame_setI_advance s (fontAddress (s.getV x))⟩⟩

/-! ### An access that leaves the bank (20_memory.md R58) -/

theorem State.not_accessFits_iff (s : State) (last : Nat) :
    ¬ s.accessFits (last + 1) = true ↔ memSize ≤ s.i.toNat + last := by
  rw [State.accessFits_iff]
  omega

/-- For an `I` of the bank the record has the address 0x1000 and the word that the instruction was decoded from. -/
theorem tookFatal_raiseDataRange {w : Word} {ins : Instr} {s : State} (decoded : decodeWord w = some ins)
    (base : s.i.toNat ≤ 0xFFF) : TookFatal 1 0x1000 w s (s.raiseDataRange ins) := by
  rw [State.raiseDataRange, State.firstOutOfRange_eq base, encode_of_decodeWord decoded]
  exact tookFatal_raise s .outOfRange 0x1000 w

/-! ### The digits of `Fx33` (42_index_memory.md R122) -/

theorem exec_ldB_of_beyond (x : Reg) {s : State} (beyond : memSize ≤ s.i.toNat + 2) :
    exec (.ldB x) s = .next (s.raiseDataRange (.ldB x)) :=
  if_neg ((s.not_accessFits_iff 2).2 beyond)

/-- The digits in the three bytes from `I` on, and every other byte as before. -/
theorem State.memByte_storeDigits_digits (s : State) (v : Byte) :
    ((s.storeDigits v).memByte s.i.toNat).toNat = v.toNat / 100 ∧
    ((s.storeDigits v).memByte (s.i.toNat + 1)).toNat = v.toNat / 10 % 10 ∧
    ((s.storeDigits v).memByte (s.i.toNat + 2)).toNat = v.toNat % 10 ∧
    ∀ a : Nat, a < s.i.toNat ∨ s.i.toNat + 2 < a → (s.storeDigits v).memByte a = s.memByte a := by
  rw [s.memByte_storeDigits_hundreds v rfl, s.memByte_storeDigits_tens v rfl, s.memByte_storeDigits_units v rfl]
  exact ⟨toNat_hundreds v, toNat_tens v, toNat_units v, fun _ => s.memByte_storeDigits_other v⟩

theorem sameAllButMemAndPc {s t : State} (h : t = { s with mem := t.mem, pc := t.pc }) :
    SameRegs s t ∧ SameIndexTimer s t ∧ SameScreen s t ∧ SameStack s t ∧ SameRecord s t ∧ SameInputs s t := by
  rw [h]
  exact ⟨sameRegs_of_v rfl, ⟨rfl, rfl⟩, sameScreen_of_fb rfl, sameStack_of_fields rfl rfl, ⟨rfl, rfl, rfl, rfl⟩,
    ⟨rfl, rfl, rfl, rfl⟩⟩

/-- Settles O29: inside the bank the three stores and the advance, beyond it the fatal entry before any store. -/
theorem ldBcdRule : Obligations.LdBcdRule := by
  refine ⟨fun _ selected => decodeWord_of_encode_eq rfl (formatXK_of_selects_classByte selected),
    fun x s fits => ?_, fun w x s decoded beyond base => ?_⟩
  · obtain ⟨hundredsAt, tensAt, unitsAt, others⟩ := s.memByte_storeDigits_digits (s.getV x)
    exact ⟨_, exec_ldB_of_fits x (Nat.lt_succ_of_le fits), hundredsAt, tensAt, unitsAt, others, rfl,
      sameAllButMemAndPc rfl⟩
  · exact ⟨_, exec_ldB_of_beyond x beyond, tookFatal_raiseDataRange decoded base⟩

/-! ### The loads of `Fx65` (42_index_memory.md R123) -/

theorem exec_ldRegs_of_fits {x : Reg} {s : State} (fits : s.i.toNat + x.toNat < memSize) :
    exec (.ldRegs x) s = .next (s.loadRegs (x.toNat + 1)).advance :=
  if_pos ((s.accessFits_iff _).2 (.inr fits))

theorem exec_ldRegs_of_beyond {x : Reg} {s : State} (beyond : memSize ≤ s.i.toNat + x.toNat) :
    exec (.ldRegs x) s = .next (s.raiseDataRange (.ldRegs x)) :=
  if_neg ((s.not_accessFits_iff x.toNat).2 beyond)

/-- A register that the loads up to `V[x]` write. -/
theorem State.getV_loadRegs_of_le (s : State) {x z : Reg} (h : z.toNat ≤ x.toNat) :
    (s.loadRegs (x.toNat + 1)).getV z = s.memByte (s.i.toNat + z.toNat) := by
  rw [s.getV_loadRegs _ x.isLt, if_pos (Nat.lt_succ_of_le h)]

/-- A register above those that the loads up to `V[x]` write. -/
theorem State.getV_loadRegs_of_gt (s : State) {x z : Reg} (h : x.toNat < z.toNat) :
    (s.loadRegs (x.toNat + 1)).getV z = s.getV z := by
  rw [s.getV_loadRegs _ x.isLt, if_neg (by omega)]

/-- The frame of the loads, which write registers alone. -/
theorem frame_loadRegs_advance (s : State) (count : Nat) :
    (s.loadRegs count).advance.pc = s.pc + 2 ∧ SameIndexTimer s (s.loadRegs count).advance ∧
    SameOutside s (s.loadRegs count).advance := by
  rw [State.loadRegs_eq]
  exact ⟨rfl, sameAllButRegsAndPc rfl⟩

/-- Settles O30: inside the bank the loads and the advance, beyond it the fatal entry before any load. -/
theorem ldRegistersRule : Obligations.LdRegistersRule := by
  refine ⟨fun _ selected => decodeWord_of_encode_eq rfl (formatXK_of_selects_classByte selected),
    fun x s fits => ?_, fun w x s decoded beyond base => ?_⟩
  · exact ⟨_, exec_ldRegs_of_fits (Nat.lt_succ_of_le fits), fun _ => s.getV_loadRegs_of_le,
      fun _ => s.getV_loadRegs_of_gt, frame_loadRegs_advance s (x.toNat + 1)⟩
  · exact ⟨_, exec_ldRegs_of_beyond beyond, tookFatal_raiseDataRange decoded base⟩

end Sys2Proof.Machine
end

section
/-! Proofs for the statements of 43_draw.md: the state that a completed draw leaves, pixel by pixel and in VF, against
the sprite bits that land on the screen. -/

namespace Sys2Proof.Machine

/-! ### The sprite at `I` (43_draw.md R131 to R133) -/

/-- The compositor and the statements mean the same by a sprite bit that lands on a pixel. -/
theorem spriteHits_iff_spriteBitOn {s : State} {px py : Byte} {n : Nat} {r : Fin 32} {c : Fin 64} :
    SpriteHits px py n (fun row => s.memByte (s.ea row)) r c ↔ SpriteBitOn s px py n r c := by
  simp only [SpriteHits, SpriteBitOn, Fin.ext_iff]
  rfl

/-- The sprite is read through memory and `I` alone. -/
theorem spriteBitOn_congr {s t : State} (sameI : t.i = s.i) (sameMem : SameMem s t) (px py : Byte) (n : Nat)
    (r : Fin 32) (c : Fin 64) : SpriteBitOn t px py n r c ↔ SpriteBitOn s px py n r c := by
  simp only [SpriteBitOn, sameI, sameMem _]

theorem not_spriteBitOn_noRows (s : State) (px py : Byte) (r : Fin 32) (c : Fin 64) :
    ¬ SpriteBitOn s px py 0 r c :=
  fun ⟨_, _, noRow, _⟩ => Nat.not_lt_zero _ noRow

/-! ### A completed draw (43_draw.md R130) -/

/-- The screen that `Dxyn` composes from the state's own, and whether it collided. -/
def State.composed (s : State) (x y : Reg) (n : Nat) : Canvas :=
  Canvas.drawSprite (s.fb, false) (s.getV x) (s.getV y) n fun row => s.memByte (s.ea row)

/-- The state that `Dxyn` leaves where its rows lie in the bank; `exec_drw_of_fits` says that it does. -/
def State.afterDraw (s : State) (x y : Reg) (n : Nat) : State :=
  (({ s with fb := (s.composed x y n).1 } : State).setV vf (collisionFlag (s.composed x y n).2)).advance

theorem exec_drw_of_fits (x y : Reg) {n : Nat} {s : State} (fits : n = 0 ∨ s.i.toNat + n - 1 ≤ 4095) :
    exec (.drw x y n) s = .next (s.afterDraw x y n) := by
  have inBank : n = 0 ∨ s.i.toNat + (n - 1) < 4096 := by omega
  exact if_pos ((s.accessFits_iff n).2 inBank)

theorem exec_drw_of_beyond (x y : Reg) {n : Nat} {s : State} (someRow : 1 ≤ n) (beyond : 4095 < s.i.toNat + n - 1) :
    exec (.drw x y n) s = .next (s.raiseDataRange (.drw x y n)) := by
  have outside : ¬ (n = 0 ∨ s.i.toNat + (n - 1) < 4096) := by omega
  exact if_neg fun fits => outside ((s.accessFits_iff n).1 fits)

section
variable (s : State) (x y : Reg) (n : Nat)

/-- A draw leaves everything but the screen, VF and `PC` unchanged. -/
theorem State.frame_afterDraw :
    SameRegsBut vf s (s.afterDraw x y n) ∧ (s.afterDraw x y n).pc = s.pc + 2 ∧
    SameIndexTimer s (s.afterDraw x y n) ∧ SameMem s (s.afterDraw x y n) ∧ SameStack s (s.afterDraw x y n) ∧
    SameRecord s (s.afterDraw x y n) ∧ SameInputs s (s.afterDraw x y n) :=
  ⟨sameRegsBut_setV { s with fb := (s.composed x y n).1 } vf _, rfl, ⟨rfl, rfl⟩, sameMem_of_mem rfl,
    sameStack_of_fields rfl rfl, ⟨rfl, rfl, rfl, rfl⟩, ⟨rfl, rfl, rfl, rfl⟩⟩

theorem State.getV_vf_afterDraw : (s.afterDraw x y n).getV vf = flag (s.composed x y n).2 :=
  State.getV_setV_same { s with fb := (s.composed x y n).1 } ..

variable {n}

/-- A draw inverts the pixels that a sprite bit of 1 lands on (43_draw.md R134). -/
theorem State.pixel_afterDraw (rows : n < 16) (r : Fin 32) (c : Fin 64) :
    (s.afterDraw x y n).pixel r c = true ↔
      ¬ (s.pixel r c = true ↔ SpriteBitOn s (s.getV x) (s.getV y) n r c) := by
  rw [← spriteHits_iff_spriteBitOn]
  exact Canvas.get_drawSprite (s.fb, false) _ _ (by omega) _ r c

/-- A draw collides when a sprite bit of 1 lands on a set pixel (43_draw.md R135). -/
theorem State.collided_composed (rows : n < 16) :
    (s.composed x y n).2 = true ↔
      ∃ (r : Fin 32) (c : Fin 64), s.pixel r c = true ∧ SpriteBitOn s (s.getV x) (s.getV y) n r c := by
  simp only [← spriteHits_iff_spriteBitOn]
  exact Canvas.collided_drawSprite s.fb _ _ (by omega) _

end

theorem flag_eq_one_iff {holds : Bool} : flag holds = 1 ↔ holds = true := by
  cases holds <;> decide

theorem flag_eq_zero_iff {holds : Bool} : flag holds = 0 ↔ ¬ holds = true := by
  cases holds <;> decide

theorem State.vf_afterDraw_eq_one_iff (s : State) (x y : Reg) {n : Nat} (rows : n < 16) :
    (s.afterDraw x y n).getV vf = 1 ↔
      ∃ (r : Fin 32) (c : Fin 64), s.pixel r c = true ∧ SpriteBitOn s (s.getV x) (s.getV y) n r c := by
  rw [State.getV_vf_afterDraw, flag_eq_one_iff, s.collided_composed x y rows]

theorem State.vf_afterDraw_eq_zero_iff (s : State) (x y : Reg) {n : Nat} (rows : n < 16) :
    (s.afterDraw x y n).getV vf = 0 ↔
      ¬ ∃ (r : Fin 32) (c : Fin 64), s.pixel r c = true ∧ SpriteBitOn s (s.getV x) (s.getV y) n r c := by
  rw [State.getV_vf_afterDraw, flag_eq_zero_iff, s.collided_composed x y rows]

/-! ### One draw (43_draw.md R130 to R135, R137, R138) -/

theorem decodeWord_of_selects_drw {w : Word} (selected : Selects 0xD000 0xF000 w) :
    decodeWord w = some (.drw (fieldX w) (fieldY w) (fieldN w).toNat) := by
  have op : fieldOp w = 0xD := selects_class.1 selected
  simp [decodeWord, op]

/-- Settles O32: inside the bank the compositor's two laws and the frame, beyond it the fatal entry before any pixel. -/
theorem drawRule : Obligations.DrawRule := by
  refine ⟨fun _ => decodeWord_of_selects_drw, fun x y n s rows fits => ?_,
    fun w x y n s decoded someRow beyond base => ?_⟩
  · exact ⟨_, exec_drw_of_fits x y fits, s.pixel_afterDraw x y rows, (s.vf_afterDraw_eq_one_iff x y rows).2,
      (s.vf_afterDraw_eq_zero_iff x y rows).2, s.frame_afterDraw x y n⟩
  · exact ⟨_, exec_drw_of_beyond x y someRow beyond, tookFatal_raiseDataRange decoded base⟩

/-- Settles O33: a sprite of no rows has no bit to land on a pixel. -/
theorem drawOfNoRowsOnlyClearsFlag : Obligations.DrawOfNoRowsOnlyClearsFlag := by
  intro x y s
  have noBit := not_spriteBitOn_noRows s (s.getV x) (s.getV y)
  have cleared : (s.afterDraw x y 0).getV vf = 0 :=
    (s.vf_afterDraw_eq_zero_iff x y (by decide)).2 fun ⟨r, c, _, bit⟩ => noBit r c bit
  have sameScreen : SameScreen s (s.afterDraw x y 0) := fun r c => by
    rw [Bool.eq_iff_iff, s.pixel_afterDraw x y (by decide)]
    simp [noBit r c]
  obtain ⟨regs, pc, indexTimer, mem, stack, record, inputs⟩ := s.frame_afterDraw x y 0
  exact ⟨_, exec_drw_of_fits x y (.inl rfl), cleared, regs, pc, indexTimer, mem, sameScreen, stack, record, inputs⟩

/-! ### The same draw twice (43_draw.md R136) -/

/-- With the position outside VF, a draw leaves the same sprite to draw at the same position. -/
theorem State.spriteBitOn_afterDraw (s : State) {x y : Reg} (hx : x ≠ vf) (hy : y ≠ vf) (n : Nat) (r : Fin 32)
    (c : Fin 64) :
    SpriteBitOn (s.afterDraw x y n) ((s.afterDraw x y n).getV x) ((s.afterDraw x y n).getV y) n r c ↔
      SpriteBitOn s (s.getV x) (s.getV y) n r c := by
  obtain ⟨regs, _, ⟨sameI, _⟩, mem, _⟩ := s.frame_afterDraw x y n
  rw [regs x hx, regs y hy]
  exact spriteBitOn_congr sameI mem _ _ n r c

/-- Settles O34: the second draw inverts the pixels that the first did, and finds set those that it found clear. -/
theorem drawingTwiceRestoresTheScreen : Obligations.DrawingTwiceRestoresTheScreen := by
  intro x y n s hx hy rows fits
  obtain ⟨_, _, ⟨sameI, _⟩, _⟩ := s.frame_afterDraw x y n
  refine ⟨_, exec_drw_of_fits x y fits, _, exec_drw_of_fits x y (sameI ▸ fits), fun r c => ?_, ?_⟩
  · rw [Bool.eq_iff_iff, State.pixel_afterDraw _ x y rows, s.spriteBitOn_afterDraw hx hy, s.pixel_afterDraw x y rows]
    tauto
  · refine (State.vf_afterDraw_eq_one_iff _ x y rows).trans (exists_congr fun r => exists_congr fun c => ?_)
    rw [s.spriteBitOn_afterDraw hx hy, s.pixel_afterDraw x y rows, ← Bool.not_eq_true]
    tauto

end Sys2Proof.Machine
end

section
/-! Proofs for the statements of 44_keys_timer.md: a key test of a code that names a key and of one that names none, and
the two copies between a register and the delay timer. -/

namespace Sys2Proof.Machine

/-! ### A key test (44_keys_timer.md R140, R141, R144) -/

/-- A code that names a key is answered by a skip or none. -/
theorem State.keyTest_of_key {s : State} {x : Reg} (key : (s.getV x).toNat ≤ 15) (wanted : Bool) (ins : Instr) :
    s.keyTest x wanted ins = s.skipIf (s.keyDown (s.getV x) == wanted) :=
  if_neg (Nat.not_lt_of_le key)

/-- A code that names no key is fatal: the record has the address and the word that the test was decoded from. -/
theorem State.tookFatal_keyTest {w : Word} {ins : Instr} {s : State} {x : Reg} (decoded : decodeWord w = some ins)
    (noKey : 15 < (s.getV x).toNat) (wanted : Bool) : TookFatal 5 s.pc w s (s.keyTest x wanted ins) := by
  rw [State.keyTest, if_pos noKey, encode_of_decodeWord decoded]
  exact tookFatal_raise s .keyCodeRange s.pc w

theorem exec_skp_of_key {x : Reg} {s : State} (key : (s.getV x).toNat ≤ 15) :
    exec (.skp x) s = .next (s.skipIf (s.keyDown (s.getV x))) := by
  rw [← beq_true (s.keyDown (s.getV x)), ← State.keyTest_of_key key true (.skp x)]
  rfl

theorem exec_sknp_of_key {x : Reg} {s : State} (key : (s.getV x).toNat ≤ 15) :
    exec (.sknp x) s = .next (s.skipIf (!s.keyDown (s.getV x))) := by
  rw [← beq_false (s.keyDown (s.getV x)), ← State.keyTest_of_key key false (.sknp x)]
  rfl

theorem State.skipIf_pc_eq_ite (s : State) (holds : Bool) :
    (s.skipIf holds).pc = if holds then s.pc + 4 else s.pc + 2 :=
  apply_ite (s.pc + ·) ..

theorem State.skipIf_not_pc_eq_ite (s : State) (holds : Bool) :
    (s.skipIf !holds).pc = if holds then s.pc + 2 else s.pc + 4 := by
  cases holds <;> rfl

/-- Of a skip on a condition and one on its negation exactly one is taken. -/
theorem State.skipIf_not_pc_eq_skipped_iff (s : State) (holds : Bool) :
    (s.skipIf !holds).pc = s.pc + 4 ↔ ¬ (s.skipIf holds).pc = s.pc + 4 := by
  rw [s.skipIf_pc_eq_skipped_iff, s.skipIf_pc_eq_skipped_iff, Bool.not_eq_true', Bool.not_eq_true]

/-- Settles O35. -/
theorem skpRule : Obligations.SkpRule :=
  ⟨fun _ selected => decodeWord_of_encode_eq rfl (formatXK_of_selects_classByte selected),
    fun _ s key => ⟨_, exec_skp_of_key key, s.skipIf_pc_eq_ite _, sameAllButPc s _⟩,
    fun _ _ _ decoded noKey => ⟨_, rfl, State.tookFatal_keyTest decoded noKey true⟩⟩

/-- Settles O36: SKNP skips on the negation of the condition of SKP. -/
theorem sknpRule : Obligations.SknpRule := by
  refine ⟨fun _ selected => decodeWord_of_encode_eq rfl (formatXK_of_selects_classByte selected),
    fun x s key => ?_, fun _ _ _ decoded noKey => ⟨_, rfl, State.tookFatal_keyTest decoded noKey false⟩⟩
  obtain ⟨regs, indexTimer, outside⟩ := sameAllButPc s (s.skipIf !s.keyDown (s.getV x)).pc
  exact ⟨_, exec_sknp_of_key key, s.skipIf_not_pc_eq_ite _, regs, indexTimer, outside, _, exec_skp_of_key key,
    s.skipIf_not_pc_eq_skipped_iff _⟩

/-! ### The delay timer (44_keys_timer.md R142, R143) -/

/-- Settles O37. -/
theorem ldFromTimerRule : Obligations.LdFromTimerRule :=
  ⟨fun _ selected => decodeWord_of_encode_eq rfl (formatXK_of_selects_classByte selected),
    fun x s => ⟨_, rfl, s.getV_setV_same x s.dt, frame_setV_advance s x s.dt⟩⟩

/-- The frame of an instruction that writes `DT` alone. -/
theorem frame_setDt_advance (s : State) (b : Byte) :
    ({ s with dt := b } : State).advance.i = s.i ∧ SameRegs s ({ s with dt := b } : State).advance ∧
    ({ s with dt := b } : State).advance.pc = s.pc + 2 ∧ SameOutside s ({ s with dt := b } : State).advance :=
  ⟨rfl, sameRegs_of_v rfl, rfl, sameOutside_of_fields rfl rfl rfl rfl ⟨rfl, rfl, rfl, rfl⟩ ⟨rfl, rfl, rfl, rfl⟩⟩

/-- Settles O38. -/
theorem ldToTimerRule : Obligations.LdToTimerRule :=
  ⟨fun _ selected => decodeWord_of_encode_eq rfl (formatXK_of_selects_classByte selected),
    fun x s => ⟨_, rfl, rfl, frame_setDt_advance s (s.getV x)⟩⟩

end Sys2Proof.Machine
end

section
/-! Proofs for the statements of 60_exceptions.md: Ticks and the outside world's move, which Steps are fatal and with
which cause, Load, the halted machine, the instructions that ask the outside, Present, and progress. -/

namespace Sys2Proof.Machine

/-! ### Ticks, and the outside world's move (60_exceptions.md R160, R161, R163) -/

/-- What a change of `DT` alone leaves unchanged. -/
theorem sameAllButDt {s t : State} (h : t = { s with dt := t.dt }) :
    t.pc = s.pc ∧ t.i = s.i ∧ SameRegs s t ∧ SameOutside s t := by
  rw [h]
  exact ⟨rfl, rfl, sameRegs_of_v rfl, sameOutside_of_fields rfl rfl rfl rfl ⟨rfl, rfl, rfl, rfl⟩ ⟨rfl, rfl, rfl, rfl⟩⟩

theorem State.tick_dt_of_counting {s : State} (running : s.halt = false) (nonzero : s.dt ≠ 0) :
    s.tick.dt = s.dt - 1 :=
  if_pos ⟨running, nonzero⟩

theorem State.tick_dt_of_idle {s : State} (idle : s.halt = true ∨ s.dt = 0) : s.tick.dt = s.dt := by
  refine if_neg fun ⟨running, nonzero⟩ => ?_
  obtain halted | zero := idle
  · exact Bool.false_ne_true (running.symm.trans halted)
  · exact nonzero zero

/-- Settles O39. -/
theorem tickRule : Obligations.TickRule := by
  refine fun f s => ⟨s.tick, rfl, fun running nonzero => ?_, State.tick_dt_of_idle, sameAllButDt rfl⟩
  rw [State.tick_dt_of_counting running nonzero]
  bv_omega

/-- A sequence of Ticks of a running machine comes to its closed form. -/
theorem applyOps_replicate_tick (f : Font) (n : Nat) {s : State} (running : s.halt = false) :
    applyOps f (List.replicate n .tick) s = .next (s.ticks n) := by
  rw [State.ticks_eq_iterate_tick s n running, ← List.append_nil (List.replicate n _), applyOps_ticks, applyOps]

/-- `DT` has run down once there were as many Ticks as it counted. -/
theorem dtAfter_eq_zero_iff (n : Nat) (dt : Byte) : dtAfter n dt = 0 ↔ dt.toNat ≤ n := by
  rw [← BitVec.toNat_inj, toNat_dtAfter]
  exact Nat.sub_eq_zero_iff_le

/-- Settles O40, from the closed form of `n` Ticks. -/
theorem timerRunsDownToZeroAndStays : Obligations.TimerRunsDownToZeroAndStays :=
  fun f s n running => ⟨_, applyOps_replicate_tick f n running, toNat_dtAfter n s.dt, dtAfter_eq_zero_iff n s.dt,
    sameAllButDt rfl⟩

/-- Settles O6. -/
theorem worldMoveIsTicksAndInputs : Obligations.WorldMoveIsTicksAndInputs := by
  intro s running
  have ticked : (s.ticks (Config.freeTicks s.draws)).dt = (State.tick^[Config.freeTicks s.draws] s).dt :=
    congrArg State.dt (s.ticks_eq_iterate_tick _ running)
  exact ⟨ticked, rfl, rfl, rfl, rfl, rfl, rfl, sameRegs_of_v rfl, sameMem_of_mem rfl, sameScreen_of_fb rfl,
    sameStack_of_fields rfl rfl, rfl, rfl, rfl, rfl⟩

/-! ### A fatal Step is precise (60_exceptions.md R153, R154) -/

/-- The inversion of a Step: a running machine takes a fatal condition and nothing else, or keeps its fault record. -/
theorem stepWith_raised_or_kept_record {s t : State} {keys : BitVec 16} {rnd : Byte} (running : s.halt = false)
    (h : stepWith keys rnd s = .next t) :
    (∃ c addr word, t = (s.latch keys rnd).raise c addr word) ∨ SameRecord s t := by
  rw [stepWith_of_running running] at h
  obtain ⟨a, _, hcycle⟩ | ⟨w, _, _, hcycle⟩ | ⟨w, ins, _, _, hcycle⟩ := cycle_cases (s.latch keys rnd) <;>
    rw [hcycle] at h
  · cases h; exact .inl ⟨_, _, _, rfl⟩
  · cases h; exact .inl ⟨_, _, _, rfl⟩
  · obtain ⟨c, addr, rfl⟩ | kept := exec_raised_or_kept_record h
    · exact .inl ⟨_, _, _, rfl⟩
    · exact .inr kept

/-- Settles O9: a Step that keeps the fault record of a running machine does not end halted. -/
theorem fatalStepIsPrecise : Obligations.FatalStepIsPrecise := by
  intro keys rnd s t running h halted
  obtain ⟨c, addr, word, rfl⟩ | ⟨sameHalt, _⟩ := stepWith_raised_or_kept_record running h
  · exact ⟨tookFatal_raise _ c addr word, c.code_range⟩
  · exact absurd (running.symm.trans (sameHalt.symm.trans halted)) Bool.false_ne_true

/-! ### The cause of a fatal instruction (60_exceptions.md R151) -/

/-- The fatal condition that an instruction meets in a state, if any; `exec_of_cause` and `exec_of_no_cause` tie it
to `exec`. -/
def State.causeOf (s : State) : Instr → Option Cause
  | .ret => if s.sp = 0 then some .stackUnderflow else none
  | .call _ => if 16 ≤ s.sp.toNat then some .stackOverflow else none
  | .drw _ _ n => if 1 ≤ n ∧ 4095 < s.i.toNat + n - 1 then some .outOfRange else none
  | .ldB _ => if 4095 < s.i.toNat + 2 then some .outOfRange else none
  | .ldRegs x => if 4095 < s.i.toNat + x.toNat then some .outOfRange else none
  | .skp x | .sknp x => if 15 < (s.getV x).toNat then some .keyCodeRange else none
  | _ => none

/-- An instruction that meets a fatal condition takes it. -/
theorem exec_of_cause {ins : Instr} {s : State} {c : Cause} (h : s.causeOf ins = some c) :
    ∃ addr, exec ins s = .next (s.raise c addr (encode ins)) := by
  cases ins <;> simp only [State.causeOf, Option.ite_none_right_eq_some, reduceCtorEq, Option.some.injEq] at h
  all_goals obtain ⟨met, rfl⟩ := h
  case ret => exact ⟨_, exec_ret_of_empty met⟩
  case call nnn => exact ⟨_, exec_call_of_full nnn met⟩
  case drw x y n =>
    obtain ⟨someRow, beyond⟩ := met
    exact ⟨_, exec_drw_of_beyond x y someRow beyond⟩
  case ldB x => exact ⟨_, exec_ldB_of_beyond x met⟩
  case ldRegs => exact ⟨_, exec_ldRegs_of_beyond met⟩
  case skp | sknp => exact ⟨_, congrArg Host.Outcome.next (if_pos met)⟩

/-- A `RET` that answers a next state from a stack that is not empty pops. -/
theorem exec_ret_of_nonempty {s t : State} (nonempty : ¬ s.sp = 0) (h : exec .ret s = .next t) :
    ∃ a popped, s.pop? = some (a, popped) ∧ t = popped.jump a := by
  simp only [exec, execRet, if_neg nonempty] at h
  split at h <;> cases h
  exact ⟨_, _, ‹_›, rfl⟩

/-- An instruction whose next state is known to keep the fault record keeps it. -/
theorem sameRecord_of_exec_eq {ins : Instr} {s t u : State} (h : exec ins s = .next t) (computed : exec ins s = .next u)
    (kept : SameRecord s u) : SameRecord s t := by
  cases h.symm.trans computed
  exact kept

/-- An instruction that meets no fatal condition keeps the fault record. -/
theorem exec_of_no_cause {ins : Instr} {s t : State} (safe : s.causeOf ins = none) (h : exec ins s = .next t) :
    SameRecord s t := by
  cases ins <;> simp only [State.causeOf, ite_eq_right_iff, reduceCtorEq, imp_false, Nat.not_lt, Nat.not_le] at safe
  case ret =>
    obtain ⟨a, popped, hpop, rfl⟩ := exec_ret_of_nonempty safe h
    obtain ⟨_, _, rfl⟩ := State.pop?_eq_some.1 hpop
    exact ⟨rfl, rfl, rfl, rfl⟩
  case call nnn =>
    have pushes := exec_call_of_push? nnn (State.push?_eq_some.2 ⟨safe, rfl⟩)
    exact sameRecord_of_exec_eq h pushes ⟨rfl, rfl, rfl, rfl⟩
  case drw x y n =>
    obtain ⟨_, _, _, _, _, record, _⟩ := s.frame_afterDraw x y n
    exact sameRecord_of_exec_eq h (exec_drw_of_fits x y (by omega)) record
  case ldB x =>
    have record : SameRecord s (s.storeDigits (s.getV x)).advance := by simp [SameRecord]
    exact sameRecord_of_exec_eq h (exec_ldB_of_fits x (Nat.lt_succ_of_le safe)) record
  case ldRegs x =>
    obtain ⟨_, _, _, _, _, record, _⟩ := frame_loadRegs_advance s (x.toNat + 1)
    exact sameRecord_of_exec_eq h (exec_ldRegs_of_fits (Nat.lt_succ_of_le safe)) record
  case skp => exact sameRecord_of_exec_eq h (exec_skp_of_key safe) ⟨rfl, rfl, rfl, rfl⟩
  case sknp => exact sameRecord_of_exec_eq h (exec_sknp_of_key safe) ⟨rfl, rfl, rfl, rfl⟩
  -- The other instructions are never fatal and write no part of the record.
  all_goals
    cases h
    exact ⟨rfl, rfl, rfl, rfl⟩

/-- The fatal condition that a Step of a running machine meets, if any: the first stage to fail wins
(60_exceptions.md R152). -/
def State.stepCause (s : State) : Option Cause :=
  match s.fetch with
  | .error _ => some .outOfRange
  | .ok w => (decodeWord w).elim (some .unimplementedOpcode) s.causeOf

theorem State.fetch_eq_ok_iff_exists {s : State} : (∃ w, s.fetch = .ok w) ↔ s.pc.toNat < 0xFFF := by
  simp only [State.fetch_eq_ok]
  exact ⟨fun ⟨_, h, _⟩ => Nat.lt_of_succ_lt_succ h, fun h => ⟨_, Nat.succ_lt_succ h, rfl⟩⟩

/-- The instructions that are fatal, and when. -/
theorem State.causeOf_eq_some_iff {s : State} {ins : Instr} {c : Cause} :
    s.causeOf ins = some c ↔ (NeedsBeyondBank ins s ∧ .outOfRange = c) ∨
      (((∃ nnn, ins = .call nnn) ∧ 16 ≤ s.sp.toNat) ∧ .stackOverflow = c) ∨
      ((ins = .ret ∧ s.sp = 0) ∧ .stackUnderflow = c) ∨
      ((∃ x, (ins = .skp x ∨ ins = .sknp x) ∧ 15 < (s.getV x).toNat) ∧ .keyCodeRange = c) := by
  cases ins <;> simp [State.causeOf, NeedsBeyondBank]

/-- The stages at which a Step is fatal. -/
theorem State.stepCause_eq_some_iff {s : State} {c : Cause} :
    s.stepCause = some c ↔ (0xFFF ≤ s.pc.toNat ∧ .outOfRange = c) ∨
      (∃ w, s.fetch = .ok w ∧ decodeWord w = none ∧ .unimplementedOpcode = c) ∨
      ∃ w ins, s.fetch = .ok w ∧ decodeWord w = some ins ∧ s.causeOf ins = some c := by
  have fetches := s.fetch_eq_ok_iff_exists
  rw [← Nat.not_lt, ← fetches, State.stepCause]
  cases s.fetch with
  | error a => simp
  | ok w => cases decoded : decodeWord w <;> simp [decoded]

/-- A Step that meets no fatal condition comes to its execute stage, and meets none there. -/
theorem State.stepCause_eq_none_iff {s : State} :
    s.stepCause = none ↔ ∃ w ins, s.fetch = .ok w ∧ decodeWord w = some ins ∧ s.causeOf ins = none := by
  rw [State.stepCause]
  cases s.fetch with
  | error a => simp
  | ok w => cases decoded : decodeWord w <;> simp [decoded]

theorem Cause.code_inj {c c' : Cause} : c.code = c'.code ↔ c = c' := by
  cases c <;> cases c' <;> decide

section
variable {s t : State} {keys : BitVec 16} {rnd : Byte} (running : s.halt = false) (h : stepWith keys rnd s = .next t)
include running h

/-- A Step that meets a fatal condition records its cause. -/
theorem fcause_of_stepCause {c : Cause} (fatal : s.stepCause = some c) : t.fcause = c.code := by
  obtain ⟨beyond, rfl⟩ | ⟨w, fetched, undecoded, rfl⟩ | ⟨w, ins, fetched, decoded, met⟩ :=
    State.stepCause_eq_some_iff.1 fatal
  · rw [stepWith_of_unfetched running (State.fetch_beyond beyond)] at h
    cases h; rfl
  · rw [stepWith_of_undecoded running fetched undecoded] at h
    cases h; rfl
  · obtain ⟨addr, raised⟩ := exec_of_cause (s := s.latch keys rnd) met
    rw [stepWith_of_decoded running fetched decoded, raised] at h
    cases h; rfl

/-- A Step that meets no fatal condition keeps the fault record. -/
theorem sameRecord_of_stepCause (safe : s.stepCause = none) : SameRecord s t := by
  obtain ⟨w, ins, fetched, decoded, unmet⟩ := State.stepCause_eq_none_iff.1 safe
  rw [stepWith_of_decoded running fetched decoded] at h
  exact exec_of_no_cause (s := s.latch keys rnd) unmet h

/-- From a state with the invariant the recorded cause is that of the fatal condition met. -/
theorem fcause_eq_code_iff (inv : Inv s) (c : Cause) : t.fcause = c.code ↔ s.stepCause = some c := by
  cases met : s.stepCause with
  | some c' => rw [fcause_of_stepCause running h met, Cause.code_inj, Option.some_inj]
  | none =>
    obtain ⟨_, kept, _⟩ := sameRecord_of_stepCause running h met
    have empty : t.fcause = 0 := kept.trans (inv.running_iff.1 running)
    rw [empty]
    exact iff_of_false c.code_ne_zero.symm nofun

end

/-- Settles O10: each clause is what `stepCause` and `causeOf` say of one cause. -/
theorem causesHaveTheirRaisers : Obligations.CausesHaveTheirRaisers := by
  intro keys rnd s t inv running h
  have recorded := fcause_eq_code_iff running h inv
  have full : 16 ≤ s.sp.toNat ↔ s.sp = 16 := by
    have := inv.sp_le
    bv_omega
  refine ⟨(recorded .outOfRange).trans ?_, (recorded .unimplementedOpcode).trans ?_, (recorded .stackOverflow).trans ?_,
    (recorded .stackUnderflow).trans ?_, (recorded .keyCodeRange).trans ?_, ?_⟩
  · simp [State.stepCause_eq_some_iff, State.causeOf_eq_some_iff]
  · simp [State.stepCause_eq_some_iff, State.causeOf_eq_some_iff]
  · simp [State.stepCause_eq_some_iff, State.causeOf_eq_some_iff, full]
  · simp [State.stepCause_eq_some_iff, State.causeOf_eq_some_iff]
  · simp [State.stepCause_eq_some_iff, State.causeOf_eq_some_iff, or_and_right, and_or_left, exists_or]
  · rw [← Bool.not_eq_false, (stepWith_keeps_inv inv h).running_iff]

/-! ### Load (60_exceptions.md R170) -/

theorem State.loadAccepted_iff {s : State} {bytes : List Byte} :
    s.loadAccepted bytes = true ↔ s.started = false ∧ s.halt = false ∧ bytes.length ≤ progMax := by
  simp [State.loadAccepted, and_assoc]

theorem State.load_of_accepted {s : State} {bytes : List Byte} (accepted : s.loadAccepted bytes = true) :
    s.load bytes = s.storeBytes progBase bytes :=
  if_pos accepted

theorem State.load_of_refused {s : State} {bytes : List Byte} (refused : ¬ s.loadAccepted bytes = true) :
    s.load bytes = s :=
  if_neg refused

/-- Settles O46: the copy writes its own addresses alone, and outside the window nothing is copied. -/
theorem loadRule : Obligations.LoadRule := by
  refine fun f bytes s => ⟨fun fresh running short => ?_, fun outside => ?_⟩
  · have accepted := State.loadAccepted_iff.2 ⟨fresh, running, short⟩
    have others (a : Nat) (elsewhere : a < 0x200 ∨ 0x200 + bytes.length ≤ a) :
        (s.load bytes).memByte a = s.memByte a := by
      rw [State.load_of_accepted accepted, State.memByte_storeBytes, if_neg (by simp only [progBase]; omega)]
    refine ⟨s.load bytes, rfl, fun _ inside => State.memByte_load accepted inside, others, ?_⟩
    rw [State.load_of_accepted accepted]
    exact ⟨s.storeBytes_pc _ _, sameAllButMemAndPc (by rw [State.storeBytes_eq])⟩
  · have refused : ¬ s.loadAccepted bytes = true := by
      rw [State.loadAccepted_iff]
      rintro ⟨fresh, running, short⟩
      simp [fresh, running, Nat.not_lt.2 short] at outside
    exact congrArg Host.Outcome.next (State.load_of_refused refused)

/-! ### The halted machine (60_exceptions.md R155) -/

/-- Every operation but Reset leaves a halted machine as it is. -/
theorem applyOp_of_halt {s : State} (halted : s.halt = true) (f : Font) {op : Op} (notReset : op ≠ .reset) :
    applyOp f op s = .next s := by
  cases op with
  | reset => exact absurd rfl notReset
  | load bytes =>
    have refused : ¬ s.loadAccepted bytes = true := by simp [State.loadAccepted_iff, halted]
    exact congrArg Host.Outcome.next (State.load_of_refused refused)
  | step keys rnd => exact if_pos halted
  | tick =>
    have idle : s.tick = { s with dt := s.tick.dt } := rfl
    rw [State.tick_dt_of_idle (.inl halted)] at idle
    exact congrArg Host.Outcome.next idle
  | present => rfl

theorem applyOps_of_halt {s : State} (halted : s.halt = true) (f : Font) {ops : List Op} (noReset : Op.reset ∉ ops) :
    applyOps f ops s = .next s := by
  induction ops with
  | nil => rfl
  | cons op ops ih =>
    obtain ⟨notReset, noReset⟩ := List.ne_and_not_mem_of_not_mem_cons noReset
    simp only [applyOps, applyOp_of_halt halted f (Ne.symm notReset)]
    exact ih noReset

/-- Settles O11. -/
theorem haltedMachineIsAbsorbing : Obligations.HaltedMachineIsAbsorbing :=
  fun f s halted => ⟨step_of_halt halted, fun _ => applyOps_of_halt halted f, s.resetOp f, rfl, s.resetOp_halt f⟩

/-! ### The instructions that ask the outside (60_exceptions.md R159) -/

/-- A result with the inputs of its next state, if it has one, replaced. -/
def latchNext (keys : BitVec 16) (rnd : Byte) : Result → Result
  | .next t => .next (t.latch keys rnd)
  | .fault r => .fault r
  | .refused r => .refused r

section
variable (s : State) (keys : BitVec 16) (rnd : Byte)

theorem State.pop?_latch :
    (s.latch keys rnd).pop? = s.pop?.map fun popped => (popped.1, popped.2.latch keys rnd) := by
  unfold State.pop?
  rw [apply_dite (Option.map _)]
  rfl

theorem State.push?_latch (a : Word) : (s.latch keys rnd).push? a = (s.push? a).map (State.latch · keys rnd) := by
  unfold State.push?
  rw [apply_dite (Option.map _)]
  rfl

theorem State.loadRegs_latch (count : Nat) :
    (s.latch keys rnd).loadRegs count = (s.loadRegs count).latch keys rnd := by
  induction count with
  | zero => rfl
  | succ count ih => rw [State.loadRegs_succ, State.loadRegs_succ, ih]; rfl

/-- An instruction other than RND, SKP and SKNP does the same with any inputs, and passes them on. -/
theorem exec_latch {ins : Instr} (notRnd : ∀ x kk, ins ≠ .rnd x kk) (notSkp : ∀ x, ins ≠ .skp x)
    (notSknp : ∀ x, ins ≠ .sknp x) : exec ins (s.latch keys rnd) = latchNext keys rnd (exec ins s) := by
  cases ins
  case rnd x kk => exact absurd rfl (notRnd x kk)
  case skp x => exact absurd rfl (notSkp x)
  case sknp x => exact absurd rfl (notSknp x)
  case ret =>
    simp only [exec, execRet, State.pop?_latch, State.latch_sp]
    split
    · rfl
    · cases s.pop? <;> rfl
  case call nnn =>
    simp only [exec, execCall, State.push?_latch, State.latch_pc]
    cases s.push? (s.pc + 2) <;> rfl
  case drw | ldB | ldRegs =>
    simp only [exec, execDrw, execLdB, execLdRegs, State.loadRegs_latch]
    rw [apply_ite (latchNext keys rnd)]
    rfl
  -- The other arms neither branch nor read the inputs.
  all_goals rfl

end

/-- Settles O43. -/
theorem onlyThreeInstructionsAskTheOutside : Obligations.OnlyThreeInstructionsAskTheOutside := by
  intro ins keys keys' rnd rnd' s t notRnd notSkp notSknp h
  have relatched := exec_latch (s.latch keys rnd) keys' rnd' notRnd notSkp notSknp
  rwa [h] at relatched

/-! ### Present (60_exceptions.md R168) -/

/-- Present answers the rows one after another. -/
theorem State.present_eq (s : State) : s.present = s.fb.flatten.toList := by
  show s.fb.toList.flatMap Vector.toList = (s.fb.toArray.map Vector.toArray).flatten.toList
  rw [Array.toList_flatten, Array.toList_map, List.map_map, List.flatMap_def]
  rfl

/-- Settles O48. -/
theorem presentIsRowMajor : Obligations.PresentIsRowMajor := by
  intro s
  rw [State.present_eq]
  refine ⟨Vector.length_toList, fun r c => ?_, fun _ => rfl⟩
  have inside : 64 * r.val + c.val < 32 * 64 := by omega
  rw [Vector.getElem?_toList, Vector.getElem?_flatten, dif_pos inside]
  have row : (64 * r.val + c.val) / 64 = r.val := by omega
  have column : (64 * r.val + c.val) % 64 = c.val := by omega
  simp only [row, column]
  rfl

/-! ### Progress (60_exceptions.md R150 to R155) -/

theorem cycle_answers_next {s : State} (inv : Inv s) : ∃ t, cycle s = .next t := by
  obtain ⟨a, _, h⟩ | ⟨w, _, _, h⟩ | ⟨w, ins, _, _, h⟩ := cycle_cases s <;> rw [h]
  · exact ⟨_, rfl⟩
  · exact ⟨_, rfl⟩
  · exact exec_answers_next ins inv.sp_le

theorem step_answers_next {s : State} (inv : Inv s) : ∃ t, step s = .next t := by
  unfold step
  split
  · exact ⟨_, rfl⟩
  · exact cycle_answers_next inv.advanceWorld

theorem applyOp_answers_next {s : State} (inv : Inv s) (f : Font) (op : Op) : ∃ t, applyOp f op s = .next t := by
  cases op with
  | step keys rnd =>
    show ∃ t, stepWith keys rnd s = .next t
    unfold stepWith
    split
    · exact ⟨_, rfl⟩
    · exact cycle_answers_next (inv.latch keys rnd)
  | _ => exact ⟨_, rfl⟩

/-- Each operation answers a next state that has the invariant, so the next one does too. -/
theorem applyOps_answers_next {s : State} (inv : Inv s) (f : Font) (ops : List Op) :
    ∃ t, applyOps f ops s = .next t := by
  induction ops generalizing s with
  | nil => exact ⟨_, rfl⟩
  | cons op ops ih =>
    obtain ⟨u, h⟩ := applyOp_answers_next inv f op
    simp only [applyOps, h]
    exact ih (applyOp_keeps_inv inv h)

theorem noStop_of_answers_next {r : Result} (h : ∃ t, r = .next t) : NoStop r := by
  obtain ⟨t, h⟩ := h
  exact ⟨t, h, trivial⟩

/-- Settles O52. -/
theorem nothingStopsTheMachine : Obligations.NothingStopsTheMachine :=
  fun _ inv => ⟨noStop_of_answers_next (step_answers_next inv),
    fun f ops => noStop_of_answers_next (applyOps_answers_next inv f ops)⟩

end Sys2Proof.Machine
end

section
/-! Proofs for the statements of 70_reset_and_hazards.md: the settled machine, and the machine with nothing loaded. -/

namespace Sys2Proof.Machine

/-! ### The settled machine (70_reset_and_hazards.md R191) -/

/-- Whether a machine is settled depends on `HALT`, `PC` and memory alone. -/
theorem Settled.of_fields {s t : State} (settled : Settled s) (sameHalt : t.halt = s.halt) (samePc : t.pc = s.pc)
    (sameMem : t.mem = s.mem) : Settled t := by
  obtain ⟨running, w, fetched, jumpsHere⟩ := settled
  refine ⟨sameHalt.trans running, w, (State.fetch_congr samePc sameMem).trans fetched, ?_⟩
  rwa [samePc]

/-- The jump of a settled machine goes where the pc already is. -/
theorem stepWith_of_settled {s : State} (settled : Settled s) (keys : BitVec 16) (rnd : Byte) :
    stepWith keys rnd s = .next (s.latch keys rnd) := by
  obtain ⟨running, w, fetched, jumpsHere⟩ := settled
  exact stepWith_of_decoded running fetched jumpsHere keys rnd

theorem State.toNat_tick_dt_le (s : State) : s.tick.dt.toNat ≤ s.dt.toNat := by
  by_cases counting : s.halt = false ∧ s.dt ≠ 0
  · obtain ⟨running, nonzero⟩ := counting
    rw [State.tick_dt_of_counting running nonzero]
    bv_omega
  · rw [State.tick_dt, if_neg counting]

/-- Settles O44. -/
theorem settledMachineStaysSettled : Obligations.SettledMachineStaysSettled :=
  fun keys rnd s settled => ⟨stepWith_of_settled settled keys rnd, settled.of_fields rfl rfl rfl,
    settled.of_fields rfl rfl rfl, s.toNat_tick_dt_le, rfl⟩

/-! ### The machine with nothing loaded (70_reset_and_hazards.md R182) -/

/-- A step of a running machine whose word does not decode takes `UnimplementedOpcode`, after the outside world's
move. -/
theorem step_of_undecoded {s : State} {w : Word} (running : s.halt = false) (fetched : s.fetch = .ok w)
    (undecoded : decodeWord w = none) :
    step s = .next (s.advanceWorld.raise .unimplementedOpcode s.pc w) := by
  have movedFetch : s.advanceWorld.fetch = .ok w := (State.fetch_congr rfl rfl).trans fetched
  simp only [step_of_running running, cycle, movedFetch, undecoded, State.advanceWorld_pc]

/-- Reset leaves two zero bytes at `PROG_BASE`, outside the font. -/
theorem State.fetch_resetWith (f : Font) : (State.resetWith f).fetch = .ok 0x0000 := by
  have atBase : (State.resetWith f).pc.toNat = progBase := by rw [State.resetWith_pc]; rfl
  rw [State.fetch_ok (by rw [atBase]; decide), atBase, State.memByte_resetWith_zero f (.inr (by decide)),
    State.memByte_resetWith_zero f (.inr (by decide))]
  rfl

/-- Settles O47: the word 0x0000 is unimplemented. -/
theorem unloadedMachineHaltsAtOnce : Obligations.UnloadedMachineHaltsAtOnce := fun f =>
  ⟨_, step_of_undecoded (State.resetWith_halt f) (State.fetch_resetWith f) (by decide),
    rfl, rfl, State.resetWith_pc f, rfl, State.resetWith_pc f⟩

end Sys2Proof.Machine
end

section
/-! Proof for the model's own choice where `SP` is above 16, which 10_state.md R31 says is never reached
(notes/assumptions/9.md). -/

namespace Sys2Proof.Machine

/-- A pointer above 16 is not 0, so RET gets past its underflow test, and names no frame to pop. -/
theorem exec_ret_of_above {s : State} (above : 16 < s.sp.toNat) :
    exec .ret s = .fault .stackPointerOutOfRange := by
  have nonempty : ¬ s.sp = 0 := by bv_omega
  simp only [exec, execRet, if_neg nonempty, State.pop?_eq_none.2 (.inr above)]

/-- Settles O13: CALL treats a pointer above 16 as it does a full stack. -/
theorem stackPointerAboveSixteenStopsReturn : Obligations.StackPointerAboveSixteenStopsReturn :=
  fun s above => ⟨exec_ret_of_above above, fun nnn =>
    ⟨_, exec_call_of_full nnn above.le, tookFatal_raise s .stackOverflow s.pc _⟩⟩

end Sys2Proof.Machine
end
